-- ==== Sys2Proof/Word.lean ====
section
/-! DEFINITION. The word types of the console block (00_scope.md R9: every value is an unsigned bit
vector of a stated width). -/

namespace Sys2Proof

/-- An 8-bit value: a character code, an attribute, a scancode, a port datum (R6). -/
abbrev Byte := BitVec 8

/-- A 16-bit value: a cell (R27), a command word (R70), a cursor offset (R6 OFFSET_BITS). -/
abbrev Word := BitVec 16

/-- A 16-bit I/O port address (R6 PORT_ADDR_BITS). -/
abbrev Port := BitVec 16

/-- A 4-bit colour (R36). Every value is legal. -/
abbrev Colour := BitVec 4

/-- A 7-bit key number, the index of KEYMAP (R77). -/
abbrev Key := BitVec 7

end Sys2Proof
end

