-- ==== Sys2Proof/Syntax.lean ====
section
/-! DEFINITION. The block's instructions, one constructor per row of spec/opcode_table.json, and the
encoded inputs they arrive in. -/

namespace Sys2Proof

/-- Which of the two shift keys a shift scancode names (R136, R137: 0x2A/0xAA left, 0x36/0xB6 right). -/
inductive ShiftKey where
  | left
  | right
deriving DecidableEq, Repr

/-- The eleven forms of the opcode table: six command words (format CMD16) and five scancode classes
(format SC8). -/
inductive Instr where
  /-- PUTC.NL, newline (R109). -/
  | putcNl
  /-- PUTC.TAB, tab (R110). -/
  | putcTab
  /-- PUTC.BS, backspace (R111). -/
  | putcBs
  /-- PUTC.PLAIN, any other character `c` (R112). -/
  | putcPlain (c : Byte)
  /-- SETCOLOR, with its two colours (R108). -/
  | setcolor (fg bg : Colour)
  /-- INIT (R107). -/
  | init
  /-- SC.SHIFT_MAKE, a shift key pressed (R136). -/
  | scShiftMake (k : ShiftKey)
  /-- SC.SHIFT_BREAK, a shift key released (R137). -/
  | scShiftBreak (k : ShiftKey)
  /-- SC.CAPS_MAKE, caps lock pressed (R138). -/
  | scCapsMake
  /-- SC.BREAK_OTHER, any other break code or prefix byte; `key` is its bits 6:0 (R139). -/
  | scBreakOther (key : Key)
  /-- SC.KEY_MAKE, any other make code; `key` is its bits 6:0 (R140). -/
  | scKeyMake (key : Key)
deriving DecidableEq, Repr

/-- What one step of the block is given from outside (R3, R30): a command word the host puts on the
command port (R70), or, for a keyboard step, the byte its one port read answers: the status byte in
phase POLL, the data byte, a scancode, in phase READ (R56). -/
inductive Input where
  | command (w : Word)
  | keyboard (answer : Byte)
deriving DecidableEq, Repr, Inhabited

end Sys2Proof
end

