-- ==== Sys2Proof/Config.lean ====
section
/-! DEFINITION. The fixed parameters of R6, the type of the open parameters of R7, the character codes
of R8, and the free values of the environment. -/

namespace Sys2Proof

/-! ## Fixed parameters (R6) -/

/-- Columns of the framebuffer. -/
def WIDTH : Nat := 80

/-- Rows of the framebuffer. -/
def HEIGHT : Nat := 25

/-- Cells of the framebuffer. -/
def CELLS : Nat := 2000

/-- Left shift make code. -/
def LSHIFT_MAKE : Byte := 0x2A

/-- Right shift make code. -/
def RSHIFT_MAKE : Byte := 0x36

/-- Left shift break code. -/
def LSHIFT_BREAK : Byte := 0xAA

/-- Right shift break code. -/
def RSHIFT_BREAK : Byte := 0xB6

/-- Caps lock make code. -/
def CAPS_MAKE : Byte := 0x3A

/-! ## Character codes (R8, D20; entry 15: ASCII) -/

/-- `'\n'`. -/
def NL : Byte := 0x0A

/-- `'\t'`. -/
def TAB : Byte := 0x09

/-- `'\b'`. -/
def BS : Byte := 0x08

/-- The space character. -/
def SPACE : Byte := 0x20

/-- The string terminator of WRITE_STRING (R82, D22). -/
def NUL : Byte := 0x00

/-! ## Open parameters (R7) -/

/-- One entry of KEYMAP (R133): the unshifted and the shifted result, each a byte or "no character". -/
structure KeyEntry where
  u : Option Byte
  s : Option Byte
deriving DecidableEq, Repr, Inhabited

/-- The open parameters of R7. The spec gives each no normative value, so a state carries them
(entry 1) and no step writes them. -/
structure Params where
  /-- FB_BASE, the byte address of cell 0. -/
  fbBase : Nat
  /-- CRTC_INDEX_PORT. -/
  crtcIndexPort : Port
  /-- CRTC_DATA_PORT. -/
  crtcDataPort : Port
  /-- CUR_LO_INDEX, the CRTC index of the cursor low byte register. -/
  curLoIndex : Byte
  /-- CUR_HI_INDEX, the CRTC index of the cursor high byte register. -/
  curHiIndex : Byte
  /-- KBD_STATUS_PORT. -/
  kbdStatusPort : Port
  /-- KBD_DATA_PORT. -/
  kbdDataPort : Port
  /-- KBD_READY_MASK, the "data available" bit of the status byte. -/
  kbdReadyMask : Byte
  /-- DEFAULT_ATTR, the attribute INIT sets. -/
  defaultAttr : Byte
  /-- KEYMAP, the Scancode Table (R133). -/
  keymap : Vector KeyEntry 128
deriving DecidableEq, Repr

/-! ## Free values -/

/-- The n-th step input the environment gives beyond those already lined up in the state: which source
steps next (R3, D1), the word the host sends (R70), the byte the KBC answers (R56, D13). It has no
body, so nothing can be proved of its value (entry 7). -/
opaque Config.environmentInput : Nat → Input

end Sys2Proof
end

