-- ==== Sys2Proof/WellFormed.lean ====
section
/-! DEFINITION. Which instruction terms stand for an encoding of spec/opcode_table.json: the "exclude"
lists of the table's rows. -/

namespace Sys2Proof

/-- The operands an instruction's encoding admits: PUTC.PLAIN never carries NL, TAB or BS (R72),
BREAK_OTHER is neither shift break code and KEY_MAKE neither a shift nor the caps make code (R78). -/
def Instr.wf : Instr → Bool
  | .putcNl => true
  | .putcTab => true
  | .putcBs => true
  | .putcPlain c => c != NL && c != TAB && c != BS
  | .setcolor _ _ => true
  | .init => true
  | .scShiftMake _ => true
  | .scShiftBreak _ => true
  | .scCapsMake => true
  | .scBreakOther key => key != 0x2A && key != 0x36
  | .scKeyMake key => key != 0x2A && key != 0x36 && key != 0x3A

end Sys2Proof
end

