-- ==== Sys2Proof/Decode.lean ====
section
/-! DEFINITION. Decoding of command words (R76) and scancodes (R78), total on every input and rejecting by
name; the encoder; and the opcode table's rows as masks and matches. -/

namespace Sys2Proof

/-! ## Fields (R70, R77) -/

/-- OP, bits 15:14 of a command word. -/
def opField (w : Word) : BitVec 2 := w.extractLsb' 14 2

/-- Z, bits 13:8 of a command word, reserved zero. -/
def zField (w : Word) : BitVec 6 := w.extractLsb' 8 6

/-- ARG, bits 7:0 of a command word. -/
def argField (w : Word) : Byte := w.extractLsb' 0 8

/-- A command word from its three fields (R70). -/
def commandWord (op : BitVec 2) (arg : Byte) : Word := op ++ (0 : BitVec 6) ++ arg

/-- The foreground half of an attribute byte, bits 3:0 (R74). -/
def fgField (a : Byte) : Colour := a.extractLsb' 0 4

/-- The background half of an attribute byte, bits 7:4 (R74). -/
def bgField (a : Byte) : Colour := a.extractLsb' 4 4

/-- The attribute byte `bg : fg` (R74). -/
def attrByte (fg bg : Colour) : Byte := bg ++ fg

/-- The break bit of a scancode, bit 7 (R77). -/
def breakBit (sc : Byte) : Bool := sc.getLsbD 7

/-- The key number of a scancode, bits 6:0 (R77). -/
def keyField (sc : Byte) : Key := sc.extractLsb' 0 7

/-- The make code of a key (R77). -/
def makeCode (key : Key) : Byte := (0 : BitVec 1) ++ key

/-- The break code of a key, `make | 0x80` (R77). -/
def breakCode (key : Key) : Byte := (1 : BitVec 1) ++ key

/-- The make code of a shift key (R6). -/
def shiftMakeCode : ShiftKey → Byte
  | .left => LSHIFT_MAKE
  | .right => RSHIFT_MAKE

/-- The break code of a shift key (R6). -/
def shiftBreakCode : ShiftKey → Byte
  | .left => LSHIFT_BREAK
  | .right => RSHIFT_BREAK

/-! ## Decoding -/

/-- Why a command word is reserved (the three cases of R73). -/
inductive ReservedReason where
  /-- `w[15:14] = 11`. -/
  | opcode
  /-- `w[13:8] != 0`. -/
  | zBits
  /-- `w[15:14] = 10` and `w[7:0] != 0`. -/
  | initOperand
deriving DecidableEq, Repr

/-- What a decoder answers: the instruction, or that the word is reserved and why. -/
inductive Decoded where
  | instr (i : Instr)
  | reserved (why : ReservedReason)
deriving DecidableEq, Repr

/-- The instruction a decoder read, if it read one. -/
def Decoded.toOption : Decoded → Option Instr
  | .instr i => some i
  | .reserved _ => none

/-- The form of PUTC that a character selects (R72). -/
def putcForm (c : Byte) : Instr :=
  if c = NL then .putcNl
  else if c = TAB then .putcTab
  else if c = BS then .putcBs
  else .putcPlain c

/-- `decode_cmd` of R76, on all 65536 command words. -/
def decodeCommand (w : Word) : Decoded :=
  if opField w = 3 then .reserved .opcode
  else if zField w ≠ 0 then .reserved .zBits
  else if opField w = 2 then
    if argField w = 0 then .instr .init else .reserved .initOperand
  else if opField w = 1 then .instr (.setcolor (fgField (argField w)) (bgField (argField w)))
  else .instr (putcForm (argField w))

/-- `class` of R78, on all 256 scancode bytes: the named codes before the break bit. No prefix state is
kept (R79). -/
def decodeScancode (sc : Byte) : Instr :=
  if sc = LSHIFT_MAKE then .scShiftMake .left
  else if sc = RSHIFT_MAKE then .scShiftMake .right
  else if sc = LSHIFT_BREAK then .scShiftBreak .left
  else if sc = RSHIFT_BREAK then .scShiftBreak .right
  else if sc = CAPS_MAKE then .scCapsMake
  else if breakBit sc then .scBreakOther (keyField sc)
  else .scKeyMake (keyField sc)

/-- The decoder over both input formats. -/
def decode : Input → Decoded
  | .command w => decodeCommand w
  | .keyboard sc => .instr (decodeScancode sc)

/-! ## Encoding -/

/-- The input that carries an instruction: a command word (R70 to R75) or a scancode (R77, R78). -/
def encode : Instr → Input
  | .putcNl => .command (commandWord 0 NL)
  | .putcTab => .command (commandWord 0 TAB)
  | .putcBs => .command (commandWord 0 BS)
  | .putcPlain c => .command (commandWord 0 c)
  | .setcolor fg bg => .command (commandWord 1 (attrByte fg bg))
  | .init => .command (commandWord 2 0)
  | .scShiftMake k => .keyboard (shiftMakeCode k)
  | .scShiftBreak k => .keyboard (shiftBreakCode k)
  | .scCapsMake => .keyboard CAPS_MAKE
  | .scBreakOther key => .keyboard (breakCode key)
  | .scKeyMake key => .keyboard (makeCode key)

/-! ## The input an opcode-table word stands for -/

/-- The input whose bits are `w`, numbered as spec/opcode_table.json numbers them: eight bits or fewer
are a scancode (format SC8), nine to sixteen a command word (format CMD16); bits above `nbits` are 0
(entry 16). No form of the block is longer than 16 bits (R70, R79). -/
def tableInput (nbits w : Nat) : Option Input :=
  if nbits ≤ 8 then some (.keyboard (BitVec.ofNat 8 (w % 2 ^ nbits)))
  else if nbits ≤ 16 then some (.command (BitVec.ofNat 16 (w % 2 ^ nbits)))
  else none

/-- The instruction the decoder reads from an instruction whose bits are `w`. -/
def decodeTableWord (nbits w : Nat) : Option Instr :=
  match tableInput nbits w with
  | some x => (decode x).toOption
  | none => none

/-! ## The opcode table's rows -/

/-- One row of spec/opcode_table.json: its format (`scancode` for SC8), mask, matches and exclusions,
each as a 16-bit value. -/
structure Row where
  scancode : Bool
  mask : Word
  codes : List Word
  exclude : List Word
deriving DecidableEq, Repr

/-- The bits of an input, widened to 16. -/
def Input.bits : Input → Word
  | .command w => w
  | .keyboard sc => sc.zeroExtend 16

/-- Whether an input is in format SC8. -/
def Input.isScancode : Input → Bool
  | .command _ => false
  | .keyboard _ => true

/-- Whether a row admits an input: its format, a match under the mask, and no exclusion. -/
def Row.admits (r : Row) (x : Input) : Bool :=
  x.isScancode == r.scancode && r.codes.contains (x.bits &&& r.mask) && !r.exclude.contains x.bits

/-- The row of spec/opcode_table.json an instruction belongs to. -/
def opcodeRow : Instr → Row
  | .putcNl => ⟨false, 0xFFFF, [0x000A], []⟩
  | .putcTab => ⟨false, 0xFFFF, [0x0009], []⟩
  | .putcBs => ⟨false, 0xFFFF, [0x0008], []⟩
  | .putcPlain _ => ⟨false, 0xFF00, [0x0000], [0x0008, 0x0009, 0x000A]⟩
  | .setcolor _ _ => ⟨false, 0xFF00, [0x4000], []⟩
  | .init => ⟨false, 0xFFFF, [0x8000], []⟩
  | .scShiftMake _ => ⟨true, 0xFF, [0x2A, 0x36], []⟩
  | .scShiftBreak _ => ⟨true, 0xFF, [0xAA, 0xB6], []⟩
  | .scCapsMake => ⟨true, 0xFF, [0x3A], []⟩
  | .scBreakOther _ => ⟨true, 0x80, [0x80], [0xAA, 0xB6]⟩
  | .scKeyMake _ => ⟨true, 0x80, [0x00], [0x2A, 0x36, 0x3A]⟩

end Sys2Proof
end

