-- ==== Sys2Proof/Machine/Params.lean ====
section
/-! DEFINITION. Which parameter values lie inside the spec (R7, R53, R134, U12), and the reference values
(R7, R145). -/

namespace Sys2Proof

/-- Exactly one bit of the mask is set (R7, KBD_READY_MASK). -/
abbrev oneBit (m : Byte) : Prop := m ≠ 0 ∧ m &&& (m - 1) = 0

/-- The entry of KEYMAP for a key (R133). -/
def Params.entry (p : Params) (key : Key) : KeyEntry := p.keymap[key.toNat]'key.isLt

/-- The configurations the spec covers: FB_BASE even (R53); the four ports distinct (R7, D7); the two
CRTC indices distinct and one ready bit (R7); KEYMAP's two fixed entries (R134). -/
abbrev Params.inSpec (p : Params) : Prop :=
  p.fbBase % 2 = 0
    ∧ p.crtcIndexPort ≠ p.crtcDataPort
    ∧ p.crtcIndexPort ≠ p.kbdStatusPort
    ∧ p.crtcIndexPort ≠ p.kbdDataPort
    ∧ p.crtcDataPort ≠ p.kbdStatusPort
    ∧ p.crtcDataPort ≠ p.kbdDataPort
    ∧ p.kbdStatusPort ≠ p.kbdDataPort
    ∧ p.curLoIndex ≠ p.curHiIndex
    ∧ oneBit p.kbdReadyMask
    ∧ p.entry 0x1E = ⟨some 0x61, some 0x41⟩
    ∧ p.entry 0x01 = ⟨none, none⟩

/-- The check of a configuration: any outside the spec is refused (U12). -/
def Params.wf (p : Params) : Bool := decide p.inSpec

/-! ## The reference KEYMAP (R145; entry 2: PRESUMED) -/

/-- An entry with both results. -/
def bothKeys (u s : Byte) : KeyEntry := ⟨some u, some s⟩

/-- An entry with no mapping. -/
def noKey : KeyEntry := ⟨none, none⟩

/-- Keys 0x00 to 0x0F of R145. -/
def keys00 : List KeyEntry :=
  [noKey, noKey, bothKeys 0x31 0x21, bothKeys 0x32 0x40,
   bothKeys 0x33 0x23, bothKeys 0x34 0x24, bothKeys 0x35 0x25, bothKeys 0x36 0x5E,
   bothKeys 0x37 0x26, bothKeys 0x38 0x2A, bothKeys 0x39 0x28, bothKeys 0x30 0x29,
   bothKeys 0x2D 0x5F, bothKeys 0x3D 0x2B, bothKeys 0x08 0x08, bothKeys 0x09 0x09]

/-- Keys 0x10 to 0x1F of R145. -/
def keys10 : List KeyEntry :=
  [bothKeys 0x71 0x51, bothKeys 0x77 0x57, bothKeys 0x65 0x45, bothKeys 0x72 0x52,
   bothKeys 0x74 0x54, bothKeys 0x79 0x59, bothKeys 0x75 0x55, bothKeys 0x69 0x49,
   bothKeys 0x6F 0x4F, bothKeys 0x70 0x50, bothKeys 0x5B 0x7B, bothKeys 0x5D 0x7D,
   bothKeys 0x0A 0x0A, noKey, bothKeys 0x61 0x41, bothKeys 0x73 0x53]

/-- Keys 0x20 to 0x2F of R145. -/
def keys20 : List KeyEntry :=
  [bothKeys 0x64 0x44, bothKeys 0x66 0x46, bothKeys 0x67 0x47, bothKeys 0x68 0x48,
   bothKeys 0x6A 0x4A, bothKeys 0x6B 0x4B, bothKeys 0x6C 0x4C, bothKeys 0x3B 0x3A,
   bothKeys 0x27 0x22, bothKeys 0x60 0x7E, noKey, bothKeys 0x5C 0x7C,
   bothKeys 0x7A 0x5A, bothKeys 0x78 0x58, bothKeys 0x63 0x43, bothKeys 0x76 0x56]

/-- Keys 0x30 to 0x3F of R145. -/
def keys30 : List KeyEntry :=
  [bothKeys 0x62 0x42, bothKeys 0x6E 0x4E, bothKeys 0x6D 0x4D, bothKeys 0x2C 0x3C,
   bothKeys 0x2E 0x3E, bothKeys 0x2F 0x3F, noKey, noKey,
   noKey, bothKeys 0x20 0x20, noKey, noKey,
   noKey, noKey, noKey, noKey]

/-- Keys 0x40 to 0x7F of R145: none is listed. -/
def keys40 : List KeyEntry := List.replicate 64 noKey

/-- The whole table as one list. -/
def referenceKeys : List KeyEntry := keys00 ++ keys10 ++ keys20 ++ keys30 ++ keys40

/-- The reference KEYMAP of R145. -/
def referenceKeymap : Vector KeyEntry 128 := ⟨referenceKeys.toArray, rfl⟩

/-- The reference values of R7 (entry 2: PRESUMED). -/
def Params.reference : Params where
  fbBase := 0xB8000
  crtcIndexPort := 0x3D4
  crtcDataPort := 0x3D5
  curLoIndex := 0x0F
  curHiIndex := 0x0E
  kbdStatusPort := 0x64
  kbdDataPort := 0x60
  kbdReadyMask := 0x01
  defaultAttr := 0x07
  keymap := referenceKeymap

end Sys2Proof
end

