-- ==== Sys2Proof/Machine/State.lean ====
section
/-! DEFINITION. The block's state (R20), the CRTC registers it writes (R31), the ways a step can end, and
the state after power-on reset (R38, R180). -/

namespace Sys2Proof.Machine

/-! ## Parts of the state -/

/-- Memory as (byte address, byte) pairs in one canonical form (`Memory.wf`, entry 4). -/
abbrev Memory := List Host.Cell

/-- The latch FSM's sequencer state (R26): which port the next keyboard step reads. -/
inductive Phase where
  | poll
  | read
deriving DecidableEq, Repr

/-- The causes of R161, each with the information it records. -/
inductive Cause where
  /-- ErrReservedCommand, with the reserved word. -/
  | reservedCommand (w : Word)
  /-- ErrNotInitialized, with the character. -/
  | notInitialized (c : Byte)
deriving DecidableEq, Repr

/-- The cause's code in R161. -/
def Cause.code : Cause → Nat
  | .reservedCommand _ => 1
  | .notInitialized _ => 2

/-- One event of R11: an external access of the block. -/
inductive Event where
  /-- `MW(addr, v)`: a 16-bit cell store. -/
  | memWrite (addr : Nat) (v : Word)
  /-- `MR(addr, v)`: a 16-bit cell load that answered `v`. -/
  | memRead (addr : Nat) (v : Word)
  /-- `OUT(port, v)`: a byte written to a port. -/
  | portOut (port : Port) (v : Byte)
  /-- `IN(port, v)`: a port read that answered `v`. -/
  | portIn (port : Port) (v : Byte)
deriving DecidableEq, Repr

/-- The CRTC's registers, as far as the block writes them (R31). -/
structure Crtc where
  /-- `crtc_index`, the register the data port writes. -/
  index : Byte
  /-- `crtc_lo`, the cursor location's low byte. -/
  lo : Byte
  /-- `crtc_hi`, the cursor location's high byte. -/
  hi : Byte
deriving DecidableEq, Repr

/-! ## The state -/

/-- The block's fields (R20), the CRTC's registers (R31), and the model's own fields. -/
structure State where
  /-- `cursor_col`, 0..79 (R21). -/
  cursorCol : BitVec 7
  /-- `cursor_row`, 0..24 (R22). -/
  cursorRow : BitVec 5
  /-- `attr`, the Current Attribute (R23). -/
  attr : Byte
  /-- `init_done` (R24). -/
  initDone : Bool
  /-- Memory, of which the block reaches the window that is `fb` (R28, R51). -/
  mem : Memory
  /-- `shift_held` (R25). -/
  shiftHeld : Bool
  /-- `caps_locked` (R25). -/
  capsLocked : Bool
  /-- `phase` (R26). -/
  phase : Phase
  /-- `fault` (R29). -/
  fault : Option Cause
  /-- The CRTC's registers (R31). -/
  crtc : Crtc
  /-- MODEL's own: the parameters R7 and R30 pass to the step (entry 1). -/
  params : Params
  /-- MODEL's own: step inputs the environment has lined up (entry 6). -/
  inputs : List Input
  /-- MODEL's own: how many free inputs have been drawn (entry 7). -/
  draws : Nat
  /-- MODEL's own: the event list of R11 and R12 over the run so far, oldest first (entry 8). -/
  trace : List Event
deriving DecidableEq, Repr

/-! ## How a step can end without a next state -/

/-- Reasons the machine stops. -/
inductive Fault where
  /-- Raised by `step` in a state whose `fault` is set: the block takes no further step of either kind
  (R166). Safe: nothing follows. -/
  | blockStopped (cause : Cause)
  /-- Raised by CELL_WRITE for a column or row outside the framebuffer (R102 gives no such write a
  meaning, and R53 says none occurs). Safe: no state that a run from reset reaches raises it. -/
  | cellOutsideFramebuffer (col row : Nat)
deriving DecidableEq, Repr

/-- Reasons the model gives no meaning. -/
inductive Refusal where
  /-- Raised by an arm of `exec` that has no meaning yet (none is left). Safe. -/
  | notModelled (mnemonic : String)
  /-- Raised by `step` when the parameters lie outside the spec (U12, R53). Safe. -/
  | configurationOutsideSpec
  /-- Raised by a CRTC data write whose index selects neither cursor register (R32, U17). Safe: the block
  never issues one (R103). -/
  | crtcRegisterOutsideSpec (index : Byte)
  /-- Raised by a write to a port that is not the CRTC's (R58, R59). Safe: the block never issues one. -/
  | portOutsideMap (port : Port)
deriving DecidableEq, Repr

/-! ## Reset -/

/-- What R38 leaves unspecified at power-on, as draws. -/
structure PowerOnDraws where
  cursorCol : BitVec 7
  cursorRow : BitVec 5
  attr : Byte
  mem : Memory
  crtc : Crtc
deriving DecidableEq, Repr

/-- Power-on reset (R38, R180) of a block with parameters `p`: `d` gives what the spec leaves
unspecified; no event is performed; nothing is lined up. -/
def State.powerOn (p : Params) (d : PowerOnDraws) : State where
  cursorCol := d.cursorCol
  cursorRow := d.cursorRow
  attr := d.attr
  initDone := false
  mem := d.mem
  shiftHeld := false
  capsLocked := false
  phase := .poll
  fault := none
  crtc := d.crtc
  params := p
  inputs := []
  draws := 0
  trace := []

/-- The values the model takes for what R38 leaves unspecified (entries 3 and 4: DESIGN CHOICE). -/
def PowerOnDraws.chosen : PowerOnDraws where
  cursorCol := 0
  cursorRow := 0
  attr := 0
  mem := []
  crtc := ⟨0, 0, 0⟩

/-- The machine right after reset, with the reference parameters (entry 2). -/
def State.reset : State := State.powerOn Params.reference PowerOnDraws.chosen

end Sys2Proof.Machine
end

