-- ==== Sys2Proof/Machine/Memory.lean ====
section
/-! DEFINITION. Byte memory (R50 to R57): one read, one write of consecutive bytes, one read of
consecutive bytes, over a list in canonical form. -/

namespace Sys2Proof.Machine

/-- What a byte that nothing has written reads as (entry 4: DESIGN CHOICE). -/
def Memory.unwritten : Byte := 0x00

/-- The canonical form: addresses strictly rising, and no entry equal to what an unlisted address
reads as. -/
abbrev Memory.wf (m : Memory) : Prop :=
  m.Pairwise (fun x y => x.1 < y.1) ∧ ∀ x ∈ m, x.2 ≠ Memory.unwritten

/-- The byte at an address (R57). -/
def Memory.read : Memory → Nat → Byte
  | [], _ => Memory.unwritten
  | (b, v) :: rest, a => if b = a then v else Memory.read rest a

/-- The entries of consecutive bytes from an address on, in canonical form. -/
def Memory.listed : Nat → List Byte → Memory
  | _, [] => []
  | a, v :: vs =>
    if v = Memory.unwritten then Memory.listed (a + 1) vs else (a, v) :: Memory.listed (a + 1) vs

/-- Store consecutive bytes from an address on. -/
def Memory.writeRun (m : Memory) (a : Nat) (vs : List Byte) : Memory :=
  m.filter (fun x => x.1 < a) ++ Memory.listed a vs ++ m.filter (fun x => a + vs.length ≤ x.1)

/-- `n` consecutive bytes from address `a` on, of a memory that lists nothing below `a`. -/
def Memory.readFrom : Nat → Nat → Memory → List Byte
  | 0, _, _ => []
  | n + 1, a, [] => Memory.unwritten :: Memory.readFrom n (a + 1) []
  | n + 1, a, (b, v) :: rest =>
    if b = a then v :: Memory.readFrom n (a + 1) rest
    else Memory.unwritten :: Memory.readFrom n (a + 1) ((b, v) :: rest)

/-- Load `n` consecutive bytes from an address on. In a memory in canonical form it is `Memory.read` of
each (`Memory.readRun_eq` in Laws). -/
def Memory.readRun (m : Memory) (a n : Nat) : List Byte :=
  Memory.readFrom n a (m.filter (fun x => a ≤ x.1))

end Sys2Proof.Machine
end

