-- ==== Sys2Proof/Machine/Operands.lean ====
section
/-! DEFINITION. Operands and the values formed from them: cells (R100, R101), their bytes (R52), the
cursor offset (R103), and the keyboard lookup (R135). -/

namespace Sys2Proof.Machine

/-- `cellval(c, a) = a : c` (R100). -/
def cellval (c a : Byte) : Word := a ++ c

/-- `BLANK(a)` (R101). -/
def blank (a : Byte) : Word := cellval SPACE a

/-- The character byte of a cell, bits 7:0 (R27). -/
def cellChar (v : Word) : Byte := v.extractLsb' 0 8

/-- The attribute byte of a cell, bits 15:8 (R27). -/
def cellAttr (v : Word) : Byte := v.extractLsb' 8 8

/-- The bytes of consecutive cells in memory order, the character byte at the lower address (R52). -/
def cellsToBytes : List Word → List Byte
  | [] => []
  | v :: vs => cellChar v :: cellAttr v :: cellsToBytes vs

/-- The cells that consecutive bytes hold (R52). -/
def bytesToCells : List Byte → List Word
  | c :: a :: rest => cellval c a :: bytesToCells rest
  | _ => []

/-- The linear index `row*WIDTH + col` (R28). -/
def cellIndex (col row : Nat) : Nat := row * WIDTH + col

/-- The byte address of cell `i`, `FB_BASE + 2*i` (R51). -/
def cellAddr (p : Params) (i : Nat) : Nat := p.fbBase + 2 * i

/-- `fb[i]`: the 16-bit cell with linear index `i` (R10, R52). -/
def State.cell (s : State) (i : Nat) : Word :=
  cellval (s.mem.read (cellAddr s.params i)) (s.mem.read (cellAddr s.params i + 1))

/-- The cursor's linear offset, 16 bits (R103). -/
def State.offset (s : State) : Word :=
  BitVec.ofNat 16 (cellIndex s.cursorCol.toNat s.cursorRow.toNat)

/-- The hardware cursor location `crtc_hi : crtc_lo` (R33). -/
def Crtc.location (c : Crtc) : Word := c.hi ++ c.lo

/-- DECODE (R135): the table's shifted or unshifted result for a key. -/
def decodeKey (p : Params) (key : Key) (shifted : Bool) : Option Byte :=
  if shifted then (p.entry key).s else (p.entry key).u

end Sys2Proof.Machine
end

