-- ==== Sys2Proof/Machine/Flags.lean ====
section
/-! DEFINITION. One-bit computations. The block has no flag register (40_display.md, template of every
command rule); its one-bit values are the ready test of R130 and the shifted selector of R141. -/

namespace Sys2Proof.Machine

/-- The "data available" test of a status byte, `s & KBD_READY_MASK != 0` (R34, R130). -/
def statusReady (p : Params) (status : Byte) : Bool := status &&& p.kbdReadyMask != 0

/-- The shifted selector, `shift_held ^ caps_locked` (R140, R141). -/
def State.shifted (s : State) : Bool := xor s.shiftHeld s.capsLocked

end Sys2Proof.Machine
end

