-- ==== Sys2Proof/Machine/Ops.lean ====
section
/-! DEFINITION. The shared operations: the external-access primitives of R11, CELL_WRITE (R102),
CURSOR_SYNC (R103), SCROLL (R104), LINE_ADVANCE (R105), the frame of PUTC (R106), the data read of
KBD_READ (R131), raising a fault (R12, R161, R164), and taking the next step input (R3). -/

namespace Sys2Proof.Machine

/-! ## Ending a step -/

/-- Why a computation inside a step ends early. -/
inductive Stop where
  /-- `raise Fault(cause)` of the pseudocode (R12). -/
  | raised (cause : Cause)
  /-- The machine stops. -/
  | stopped (why : Fault)
  /-- The model gives no meaning. -/
  | refused (why : Refusal)
deriving DecidableEq, Repr

/-- Raising a fault (R161, R164): the state before the step, with `fault` set to the cause and nothing
else changed (entry 5). -/
def State.raise (s : State) (cause : Cause) : State := { s with fault := some cause }

/-- Ends a step that began in `before`: an early end by `raise Fault` discards the step's state changes
and events (R12). -/
def finish (before : State) : Except Stop State → Host.Outcome State Fault Refusal
  | .ok s => .next s
  | .error (.raised cause) => .next (before.raise cause)
  | .error (.stopped why) => .fault why
  | .error (.refused why) => .refused why

/-! ## External accesses (R11) -/

/-- The MW events of consecutive cell stores from a byte address on. -/
def memWriteEvents : Nat → List Word → List Event
  | _, [] => []
  | a, v :: vs => .memWrite a v :: memWriteEvents (a + 2) vs

/-- The framebuffer with cells `vs` at indices `i, i+1, …`. The one writer of `fb` (R28). -/
def State.storeCells (s : State) (i : Nat) (vs : List Word) : State :=
  { s with mem := s.mem.writeRun (cellAddr s.params i) (cellsToBytes vs) }

/-- Append events to the event list, in order (R11). -/
def State.emit (s : State) (es : List Event) : State := { s with trace := s.trace ++ es }

/-- Consecutive `MemWrite`s: cells `vs` at indices `i, i+1, …` in ascending order, one 16-bit access and
one event each (R11, R54, R61). -/
def State.writeCells (s : State) (i : Nat) (vs : List Word) : State :=
  (s.storeCells i vs).emit (memWriteEvents (cellAddr s.params i) vs)

/-- The values of `n` cells from index `i` on. -/
def State.cells (s : State) (i n : Nat) : List Word :=
  bytesToCells (s.mem.readRun (cellAddr s.params i) (2 * n))

/-- The CRTC's registers after a port write. -/
def State.setCrtc (s : State) (c : Crtc) : State := { s with crtc := c }

/-- The CRTC's answer to a port write (R32). An index that selects neither cursor register, or another
port, is outside the spec (U17, R58). -/
def crtcWrite (p : Params) (c : Crtc) (port : Port) (v : Byte) : Except Refusal Crtc :=
  if port = p.crtcIndexPort then .ok { c with index := v }
  else if port = p.crtcDataPort then
    if c.index = p.curLoIndex then .ok { c with lo := v }
    else if c.index = p.curHiIndex then .ok { c with hi := v }
    else .error (.crtcRegisterOutsideSpec c.index)
  else .error (.portOutsideMap port)

/-- `IoWrite(port, v)` (R11, R58). -/
def State.ioWrite (s : State) (port : Port) (v : Byte) : Except Stop State :=
  match crtcWrite s.params s.crtc port v with
  | .ok c => .ok ((s.setCrtc c).emit [.portOut port v])
  | .error why => .error (.refused why)

/-- `IoRead(port)`, which the environment answers with `v` (R11, R56). -/
def State.ioRead (s : State) (port : Port) (v : Byte) : State := s.emit [.portIn port v]

/-! ## Internal operations of the display unit -/

/-- `cursor_col <- col` (R21). -/
def State.setCol (s : State) (col : BitVec 7) : State := { s with cursorCol := col }

/-- `cursor_row <- row` (R22). -/
def State.setRow (s : State) (row : BitVec 5) : State := { s with cursorRow := row }

/-- CELL_WRITE(col, row, v) (R102), with the index bound checked (R60; entry 10). -/
def State.cellWrite (s : State) (col row : Nat) (v : Word) : Except Stop State :=
  if col < WIDTH ∧ row < HEIGHT then .ok (s.writeCells (cellIndex col row) [v])
  else .error (.stopped (.cellOutsideFramebuffer col row))

/-- CURSOR_SYNC() (R103): low byte, then high byte, each behind its index write. -/
def State.cursorSync (s : State) : Except Stop State := do
  let off := s.offset
  let s ← s.ioWrite s.params.crtcIndexPort s.params.curLoIndex
  let s ← s.ioWrite s.params.crtcDataPort (off.extractLsb' 0 8)
  let s ← s.ioWrite s.params.crtcIndexPort s.params.curHiIndex
  s.ioWrite s.params.crtcDataPort (off.extractLsb' 8 8)

/-- The MR/MW pairs of a scroll, destination addresses from `a` on: each cell is read one row (160 bytes)
further on and then written. -/
def scrollEvents : Nat → List Word → List Event
  | _, [] => []
  | a, v :: vs => .memRead (a + 2 * WIDTH) v :: .memWrite a v :: scrollEvents (a + 2) vs

/-- SCROLL() (R104): rows 1..24 move to rows 0..23, then row 24 is blanked. Each source row is read
before it is overwritten, so the values read are those before the scroll (entry 9). -/
def State.scroll (s : State) : State :=
  let kept := s.cells WIDTH (CELLS - WIDTH)
  let blanks := List.replicate WIDTH (blank s.attr)
  (s.storeCells 0 (kept ++ blanks)).emit
    (scrollEvents (cellAddr s.params 0) kept ++ memWriteEvents (cellAddr s.params (CELLS - WIDTH)) blanks)

/-- LINE_ADVANCE() (R105): down one row, scrolling at the last one. -/
def State.lineAdvance (s : State) : State :=
  if s.cursorRow.toNat + 1 = HEIGHT then s.scroll.setRow (BitVec.ofNat 5 (HEIGHT - 1))
  else s.setRow (BitVec.ofNat 5 (s.cursorRow.toNat + 1))

/-- The frame of every PUTC form (R106): the `init_done` check, the form's body, one CURSOR_SYNC. -/
def State.putc (s : State) (c : Byte) (body : State → Except Stop State) : Except Stop State :=
  if s.initDone then body s >>= State.cursorSync else .error (.raised (.notInitialized c))

/-! ## Keyboard reads -/

/-- The status read of KBD_POLL (R130), answered with `status`. -/
def State.kbdPoll (s : State) (status : Byte) : State :=
  let t := s.ioRead s.params.kbdStatusPort status
  if statusReady s.params status then { t with phase := .read } else t

/-- The data read of KBD_READ (R131), answered with scancode `sc`: the phase returns to POLL. -/
def State.kbdRead (s : State) (sc : Byte) : State :=
  { s.ioRead s.params.kbdDataPort sc with phase := .poll }

/-! ## The next step's input -/

/-- The input of the next step and the state once it is taken: the first one lined up, or a free one
(R3, R30; entries 6 and 7). -/
def State.takeInput (s : State) : Input × State :=
  match s.inputs with
  | x :: rest => (x, { s with inputs := rest })
  | [] => (Config.environmentInput s.draws, { s with draws := s.draws + 1 })

/-- Line up an input so that the next step takes it: a command on the command port, or a scancode that
the data port answers in phase READ. -/
def State.lineUp (s : State) : Input → State
  | .command w => { s with inputs := .command w :: s.inputs }
  | .keyboard sc => { s with inputs := .keyboard sc :: s.inputs, phase := .read }

end Sys2Proof.Machine
end

