-- ==== Sys2Proof/Machine/Display.lean ====
section
/-! DEFINITION. The display unit's commands: the four PUTC forms (R106, R109 to R112), SETCOLOR (R108)
and INIT (R107). -/

namespace Sys2Proof.Machine

/-! ## Bodies of the PUTC forms -/

/-- PUTC.NL's body (R109). -/
def newlineBody (s : State) : Except Stop State :=
  .ok (s.setCol 0).lineAdvance

/-- The next tab stop, `(zext_8(cursor_col) + 4) & 0xFC` (R110). -/
def tabStop (col : BitVec 7) : Byte := (col.zeroExtend 8 + 4) &&& 0xFC

/-- PUTC.TAB's body (R110). -/
def tabBody (s : State) : Except Stop State :=
  if WIDTH ≤ (tabStop s.cursorCol).toNat then .ok (s.setCol 0).lineAdvance
  else .ok (s.setCol ((tabStop s.cursorCol).setWidth 7))

/-- PUTC.BS's body (R111), with the clamp to the previous line's last column (C4, D5). -/
def backspaceBody (s : State) : Except Stop State :=
  if s.cursorRow = 0 ∧ s.cursorCol = 0 then .ok s
  else if s.cursorCol ≠ 0 then
    let t := s.setCol (s.cursorCol - 1)
    t.cellWrite t.cursorCol.toNat t.cursorRow.toNat (blank t.attr)
  else
    let t := (s.setRow (s.cursorRow - 1)).setCol (BitVec.ofNat 7 (WIDTH - 1))
    t.cellWrite (WIDTH - 1) t.cursorRow.toNat (blank t.attr)

/-- PUTC.PLAIN's body (R112): the cell is written before the cursor moves and before any scroll. -/
def plainBody (c : Byte) (s : State) : Except Stop State := do
  let t ← s.cellWrite s.cursorCol.toNat s.cursorRow.toNat (cellval c s.attr)
  if t.cursorCol.toNat + 1 = WIDTH then .ok (t.setCol 0).lineAdvance
  else .ok (t.setCol (BitVec.ofNat 7 (t.cursorCol.toNat + 1)))

/-- The body a character selects (R106). -/
def putcBody (c : Byte) (s : State) : Except Stop State :=
  if c = NL then newlineBody s
  else if c = TAB then tabBody s
  else if c = BS then backspaceBody s
  else plainBody c s

/-! ## Meanings -/

/-- `attr <- a` (R23). -/
def State.setAttr (s : State) (a : Byte) : State := { s with attr := a }

/-- `init_done <- 1` (R24). -/
def State.setInitDone (s : State) : State := { s with initDone := true }

/-- PUTC.NL (R106, R109). -/
def execPutcNl (s : State) : Host.Outcome State Fault Refusal :=
  finish s (s.putc NL newlineBody)

/-- PUTC.TAB (R106, R110). -/
def execPutcTab (s : State) : Host.Outcome State Fault Refusal :=
  finish s (s.putc TAB tabBody)

/-- PUTC.BS (R106, R111). -/
def execPutcBs (s : State) : Host.Outcome State Fault Refusal :=
  finish s (s.putc BS backspaceBody)

/-- PUTC.PLAIN (R106, R112). -/
def execPutcPlain (c : Byte) (s : State) : Host.Outcome State Fault Refusal :=
  finish s (s.putc c (plainBody c))

/-- SETCOLOR (R108): the attribute only; legal before INIT. -/
def execSetcolor (fg bg : Colour) (s : State) : Host.Outcome State Fault Refusal :=
  finish s (.ok (s.setAttr (attrByte fg bg)))

/-- INIT (R107): legal at any time, repeatable; the latches and the phase are untouched (R143). -/
def execInit (s : State) : Host.Outcome State Fault Refusal :=
  let t := s.setAttr s.params.defaultAttr
  let t := t.writeCells 0 (List.replicate CELLS (blank t.attr))
  finish s ((t.setCol 0).setRow 0).setInitDone.cursorSync

end Sys2Proof.Machine
end

