-- ==== Sys2Proof/Machine/Keyboard.lean ====
section
/-! DEFINITION. The scancode classes (R136 to R140), each with the data read and the return to phase POLL
of the KBD_READ step it belongs to (R131). `step` takes them in phase READ only. -/

namespace Sys2Proof.Machine

/-- Forwarding a lookup's result (R140, R142): a character is one PUTC in the same step, "no character" is
no display activity at all. -/
def State.forward (s : State) : Option Byte → Except Stop State
  | none => .ok s
  | some c => s.putc c (putcBody c)

/-- `shift_held <- b` (R25). -/
def State.setShift (s : State) (b : Bool) : State := { s with shiftHeld := b }

/-- `caps_locked <- b` (R25). -/
def State.setCaps (s : State) (b : Bool) : State := { s with capsLocked := b }

/-- SC.SHIFT_MAKE (R131, R136). -/
def execScShiftMake (k : ShiftKey) (s : State) : Host.Outcome State Fault Refusal :=
  finish s (.ok ((s.kbdRead (shiftMakeCode k)).setShift true))

/-- SC.SHIFT_BREAK (R131, R137): one latch serves both keys. -/
def execScShiftBreak (k : ShiftKey) (s : State) : Host.Outcome State Fault Refusal :=
  finish s (.ok ((s.kbdRead (shiftBreakCode k)).setShift false))

/-- SC.CAPS_MAKE (R131, R138). -/
def execScCapsMake (s : State) : Host.Outcome State Fault Refusal :=
  finish s (.ok ((s.kbdRead CAPS_MAKE).setCaps (!s.capsLocked)))

/-- SC.BREAK_OTHER (R131, R139): the read and the phase only. -/
def execScBreakOther (key : Key) (s : State) : Host.Outcome State Fault Refusal :=
  finish s (.ok (s.kbdRead (breakCode key)))

/-- SC.KEY_MAKE (R131, R140): the lookup under the shifted selector, forwarded. -/
def execScKeyMake (key : Key) (s : State) : Host.Outcome State Fault Refusal :=
  finish s ((s.kbdRead (makeCode key)).forward (decodeKey s.params key s.shifted))

end Sys2Proof.Machine
end

