-- ==== Sys2Proof/Machine/Dispatch.lean ====
section
/-! DEFINITION. One arm per constructor of Instr. -/

namespace Sys2Proof.Machine

def exec (i : Instr) (s : State) : Host.Outcome State Fault Refusal :=
  match i with
  | .putcNl => Sys2Proof.Machine.execPutcNl s
  | .putcTab => Sys2Proof.Machine.execPutcTab s
  | .putcBs => Sys2Proof.Machine.execPutcBs s
  | .putcPlain c => Sys2Proof.Machine.execPutcPlain c s
  | .setcolor fg bg => Sys2Proof.Machine.execSetcolor fg bg s
  | .init => Sys2Proof.Machine.execInit s
  | .scShiftMake k => Sys2Proof.Machine.execScShiftMake k s
  | .scShiftBreak k => Sys2Proof.Machine.execScShiftBreak k s
  | .scCapsMake => Sys2Proof.Machine.execScCapsMake s
  | .scBreakOther key => Sys2Proof.Machine.execScBreakOther key s
  | .scKeyMake key => Sys2Proof.Machine.execScKeyMake key s

end Sys2Proof.Machine
end

