-- ==== Sys2Proof/Machine/Sources.lean ====
section
/-! DEFINITION. The two kinds of step (R3): what a host step does with its word, and what a keyboard step
does with the byte its port read answers. -/

namespace Sys2Proof.Machine

/-- A host step (R70): the decoded command's meaning, or ErrReservedCommand for a reserved word (R73),
checked before anything else of the step (R163). -/
def hostStep (w : Word) (s : State) : Host.Outcome State Fault Refusal :=
  match decodeCommand w with
  | .instr i => exec i s
  | .reserved _ => .next (s.raise (.reservedCommand w))

/-- A keyboard step whose port read answers `v`: KBD_POLL in phase POLL (R130), KBD_READ in phase READ
(R131). -/
def keyboardStep (v : Byte) (s : State) : Host.Outcome State Fault Refusal :=
  match s.phase with
  | .poll => .next (s.kbdPoll v)
  | .read => exec (decodeScancode v) s

end Sys2Proof.Machine
end

