-- ==== Sys2Proof/Machine/Step.lean ====
section
/-! DEFINITION. The step function (R3, R12), and placing an instruction where the next step fetches. -/

namespace Sys2Proof.Machine

/-- One step. A faulted block takes none (R166); a configuration outside the spec is refused (U12);
otherwise the next input is taken and its step performed. -/
def step (s : State) : Host.Outcome State Fault Refusal :=
  match s.fault with
  | some cause => .fault (.blockStopped cause)
  | none =>
    if s.params.wf then
      match s.takeInput with
      | (.command w, t) => hostStep w t
      | (.keyboard v, t) => keyboardStep v t
    else .refused .configurationOutsideSpec

/-- `s` with the instruction whose bits are `w` placed where the next step takes it: lined up as the next
input, and, for a scancode, the phase READ in which a scancode is read (entry 6). -/
def State.withFetchWord (s : State) (nbits w : Nat) : State :=
  match tableInput nbits w with
  | some x => s.lineUp x
  | none => s

end Sys2Proof.Machine
end

