-- ==== Sys2Proof/Machine/Script.lean ====
section
/-! DEFINITION. The assembler syntax of R81 and R82: lines of a script and the step inputs they stand for. -/

namespace Sys2Proof.Machine

/-- One line of R81, or a pseudo-instruction of R82. -/
inductive Line where
  | init
  | setcolor (fg bg : Colour)
  | putc (c : Byte)
  /-- The KBC delivers a scancode: a ready status read, then the data read. -/
  | key (sc : Byte)
  /-- `n` status reads that answer 0. -/
  | idle (n : Nat)
  /-- WRITE of bytes (R82, R113). -/
  | write (bs : List Byte)
  /-- WRITE_STRING of a text (R82, R114). -/
  | writeString (text : List Byte)
deriving DecidableEq, Repr

/-- The step inputs of `PUTC b0`, …, `PUTC bn-1` (R113). -/
def writeInputs (bs : List Byte) : List Input := bs.map (fun b => .command (commandWord 0 b))

/-- The step inputs a line stands for (R81, R82). -/
def Line.inputs (p : Params) : Line → List Input
  | .init => [encode .init]
  | .setcolor fg bg => [encode (.setcolor fg bg)]
  | .putc c => writeInputs [c]
  | .key sc => [.keyboard p.kbdReadyMask, .keyboard sc]
  | .idle n => List.replicate n (.keyboard 0)
  | .write bs => writeInputs bs
  | .writeString text => writeInputs (text.takeWhile (fun b => b != NUL))

/-- A script's step inputs, in the order written (R81). -/
def assemble (p : Params) (ls : List Line) : List Input := ls.flatMap (Line.inputs p)

/-- `s` with a script lined up behind what is lined up already. -/
def State.load (s : State) (ls : List Line) : State :=
  { s with inputs := s.inputs ++ assemble s.params ls }

end Sys2Proof.Machine
end

