-- ==== Sys2Proof/Safety.lean ====
section
/-! DEFINITION. The terms claims use: when a block is running, its invariant (R37), what its events do to
what lies outside it, the map of what it touches (R59), and the pseudocode loops of SCROLL read literally. -/

namespace Sys2Proof

/-- The CMD16 forms of the opcode table. -/
def Instr.isCommand : Instr → Bool
  | .putcNl => true
  | .putcTab => true
  | .putcBs => true
  | .putcPlain _ => true
  | .setcolor _ _ => true
  | .init => true
  | .scShiftMake _ => false
  | .scShiftBreak _ => false
  | .scCapsMake => false
  | .scBreakOther _ => false
  | .scKeyMake _ => false

/-- The character of a PUTC form, if the instruction is one (R72). -/
def Instr.putcChar : Instr → Option Byte
  | .putcNl => some NL
  | .putcTab => some TAB
  | .putcBs => some BS
  | .putcPlain c => some c
  | .setcolor _ _ => none
  | .init => none
  | .scShiftMake _ => none
  | .scShiftBreak _ => none
  | .scCapsMake => none
  | .scBreakOther _ => none
  | .scKeyMake _ => none

end Sys2Proof

namespace Sys2Proof.Machine

/-! ## Running states and the invariant -/

/-- A block that may take a step: no fault (R166) and a configuration the spec covers (U12). -/
abbrev State.running (s : State) : Prop := s.fault = none ∧ s.params.wf = true

/-- The cursor lies in the framebuffer (R21, R22). -/
abbrev State.cursorInRange (s : State) : Prop := s.cursorCol.toNat < WIDTH ∧ s.cursorRow.toNat < HEIGHT

/-- Nothing is stored outside the framebuffer window (R51, R59). -/
abbrev State.memInWindow (s : State) : Prop :=
  ∀ x ∈ s.mem, s.params.fbBase ≤ x.1 ∧ x.1 < s.params.fbBase + 2 * CELLS

/-- After INIT the CRTC shows the cursor and its index register holds CUR_HI_INDEX (R37, R39). -/
abbrev State.crtcSynced (s : State) : Prop :=
  s.initDone = true → s.crtc.location = s.offset ∧ s.crtc.index = s.params.curHiIndex

/-- The model's invariant: memory in canonical form and in the window, the cursor in range, the CRTC in
step with the cursor once INIT has run. -/
abbrev State.Inv (s : State) : Prop :=
  s.mem.wf ∧ s.memInWindow ∧ s.cursorInRange ∧ s.crtcSynced

/-! ## Words for frames -/

/-- Every byte outside `[a, a + n)` reads in `t` as in `s`. -/
abbrev sameBytesOutside (a n : Nat) (s t : State) : Prop :=
  ∀ x : Nat, x < a ∨ a + n ≤ x → t.mem.read x = s.mem.read x

/-- The CRTC after a CURSOR_SYNC of offset `off` (R32, R33, R39). -/
def syncedCrtc (p : Params) (off : Word) : Crtc :=
  ⟨p.curHiIndex, off.extractLsb' 0 8, off.extractLsb' 8 8⟩

/-- The four events of a CURSOR_SYNC of offset `off`, in order (R103). -/
def syncEvents (p : Params) (off : Word) : List Event :=
  [.portOut p.crtcIndexPort p.curLoIndex, .portOut p.crtcDataPort (off.extractLsb' 0 8),
   .portOut p.crtcIndexPort p.curHiIndex, .portOut p.crtcDataPort (off.extractLsb' 8 8)]

/-- The 16-bit offset of a cursor position. -/
def offsetOf (col row : Nat) : Word := BitVec.ofNat 16 (row * 80 + col)

/-- The events of SCROLL over a framebuffer whose cells are `fb`, as the loops of R104 issue them. -/
def scrollTrace (p : Params) (fb : Nat → Word) (attr : Byte) : List Event :=
  (List.range 1920).flatMap
      (fun i => [.memRead (p.fbBase + 2 * (i + 80)) (fb (i + 80)), .memWrite (p.fbBase + 2 * i) (fb (i + 80))])
    ++ (List.range 80).map (fun x => .memWrite (p.fbBase + 2 * (1920 + x)) (blank attr))

/-- `t`'s framebuffer is one whose cells are `fb`, scrolled up one row with the last row blank under
`attr` (the result R104 states). -/
abbrev scrolledFrom (fb : Nat → Word) (attr : Byte) (t : State) : Prop :=
  (∀ y x : Nat, y < 24 → x < 80 → t.cell (y * 80 + x) = fb ((y + 1) * 80 + x))
    ∧ ∀ x : Nat, x < 80 → t.cell (24 * 80 + x) = blank attr

/-- Whether an event is a cell load, which only SCROLL performs (R28, R57): 1920 of them a scroll (R104). -/
def Event.isRead : Event → Bool
  | .memRead _ _ => true
  | .memWrite _ _ => false
  | .portOut _ _ => false
  | .portIn _ _ => false

/-- A framebuffer whose cells are `fb`, scrolled up `m` rows with the rows that come in blank under `attr`
(R104, `m` times). -/
def scrolledUp (fb : Nat → Word) (attr : Byte) (m i : Nat) : Word :=
  if i + 80 * m < 2000 then fb (i + 80 * m) else blank attr

/-- The events of the newline number `k` (from 0) of a sequence that begins in row `r` over a framebuffer
whose cells are `fb` (R103, R104, R109): no scroll while rows remain, one scroll from row 24. -/
def newlineEvents (p : Params) (fb : Nat → Word) (attr : Byte) (r k : Nat) : List Event :=
  if r + k < 24 then syncEvents p (offsetOf 0 (r + k + 1))
  else scrollTrace p (scrolledUp fb attr (r + k - 24)) attr ++ syncEvents p (offsetOf 0 24)

/-- A framebuffer whose cells are `fb`, with the characters `cs` under `attr` in row `row` from column 0. -/
def overRow (fb : Nat → Word) (attr : Byte) (row : Nat) (cs : List Byte) (i : Nat) : Word :=
  if row * 80 ≤ i ∧ i < row * 80 + cs.length then attr ++ cs.getD (i - row * 80) 0 else fb i

/-- The events of plain characters written from column `col` of a row on that do not scroll (R103, R112):
each a cell store and a CURSOR_SYNC of the next linear offset. -/
def plainEvents (p : Params) (attr : Byte) (row : Nat) : Nat → List Byte → List Event
  | _, [] => []
  | col, c :: cs =>
    .memWrite (p.fbBase + 2 * (row * 80 + col)) (attr ++ c)
      :: (syncEvents p (offsetOf (col + 1) row) ++ plainEvents p attr row (col + 1) cs)

/-- An outcome with its next state, if it is one, changed by `f`. -/
def mapNext (f : State → State) :
    Host.Outcome State Fault Refusal → Host.Outcome State Fault Refusal
  | .next s => .next (f s)
  | .fault why => .fault why
  | .refused why => .refused why

/-- Instructions performed one after another, stopping at the first that raises a fault, faults or is
refused (R113, R166). -/
def execAll : List Instr → State → Host.Outcome State Fault Refusal
  | [], s => .next s
  | i :: is, s =>
    match exec i s with
    | .next t => if t.fault = none then execAll is t else .next t
    | .fault why => .fault why
    | .refused why => .refused why

/-- The latch FSM's state replaced (R25, R26). -/
def State.withLatches (s : State) (shift caps : Bool) (ph : Phase) : State :=
  { s with shiftHeld := shift, capsLocked := caps, phase := ph }

/-! ## What events do -/

/-- What lies outside the block and its events change: memory and the CRTC. -/
structure Outside where
  mem : Memory
  crtc : Crtc
deriving DecidableEq, Repr

/-- A state's view of what lies outside. -/
def State.outside (s : State) : Outside := ⟨s.mem, s.crtc⟩

/-- One event performed on what lies outside (R11, R32, R52, R57): a store stores its cell, a load is
possible only if memory holds the value it answered, a port write goes to the CRTC, a port read
changes nothing. -/
def Event.perform (p : Params) (o : Outside) : Event → Option Outside
  | .memWrite a v => some { o with mem := o.mem.writeRun a (cellsToBytes [v]) }
  | .memRead a v => if cellval (o.mem.read a) (o.mem.read (a + 1)) = v then some o else none
  | .portOut port v =>
    match crtcWrite p o.crtc port v with
    | .ok c => some { o with crtc := c }
    | .error _ => none
  | .portIn _ _ => some o

/-- Events performed one after another, in order (R61). -/
def performAll (p : Params) : List Event → Outside → Option Outside
  | [], o => some o
  | e :: es, o =>
    match e.perform p o with
    | some o' => performAll p es o'
    | none => none

/-- The complete map of what the block touches (R59): cells of the window written, cells of rows 1..24
read (R57), the two cursor registers selected, the CRTC's data port written, the keyboard's ports
read. -/
def Event.inMap (p : Params) : Event → Prop
  | .memWrite a _ => ∃ i, i < CELLS ∧ a = p.fbBase + 2 * i
  | .memRead a _ => ∃ i, WIDTH ≤ i ∧ i < CELLS ∧ a = p.fbBase + 2 * i
  | .portOut port v =>
    (port = p.crtcIndexPort ∧ (v = p.curLoIndex ∨ v = p.curHiIndex)) ∨ port = p.crtcDataPort
  | .portIn port _ => port = p.kbdStatusPort ∨ port = p.kbdDataPort

/-! ## The loops of R104, literally -/

/-- CELL_WRITE at linear index `i` (R102): one store, one event. -/
def State.cellWriteAt (s : State) (i : Nat) (v : Word) : State :=
  { s with
    mem := s.mem.writeRun (s.params.fbBase + 2 * i) [cellChar v, cellAttr v]
    trace := s.trace ++ [.memWrite (s.params.fbBase + 2 * i) v] }

/-- `MemRead` of cell `i` followed by a CELL_WRITE of its value at cell `j` (the inner loop of R104). -/
def State.copyCell (s : State) (i j : Nat) : State :=
  let v := s.cell i
  State.cellWriteAt { s with trace := s.trace ++ [.memRead (s.params.fbBase + 2 * i) v] } j v

/-- SCROLL's pseudocode (R104): both loops, one cell at a time. -/
def State.scrollLoop (s : State) : State :=
  let copied := (List.range 24).foldl
    (fun t y => (List.range 80).foldl (fun u x => u.copyCell ((y + 1) * 80 + x) (y * 80 + x)) t) s
  (List.range 80).foldl (fun t x => t.cellWriteAt (24 * 80 + x) (blank s.attr)) copied

end Sys2Proof.Machine
end

