-- ==== Sys2Proof/Certificates/Slice0/Obligations.lean ====
section
/-! DEFINITION. The statements for the provers, from the numbered rules of spec/. -/

open Sys2Proof Sys2Proof.Machine

/-! ## Encodings -/

/-- Decode and encode agree on all eleven forms (R76, R78): no operand bit is dropped. -/
def Obligations.DecodeOfEncodeIsTheInstruction : Prop :=
  ∀ i : Instr, i.wf = true → decode (encode i) = .instr i

/-- Every input has one meaning: what the decoder reads is well formed and encodes back to the input. -/
def Obligations.EncodeOfDecodeIsTheInput : Prop :=
  ∀ (x : Input) (i : Instr), decode x = .instr i → i.wf = true ∧ encode i = x

/-- R76 by the numeric value of the word: PUTC below 0x100, SETCOLOR from 0x4000 to 0x40FF, INIT at 0x8000,
everything else reserved. -/
def Obligations.CommandWordsDecodeByValue : Prop :=
  ∀ w : Word,
    (w.toNat = 0x0A → decodeCommand w = .instr .putcNl)
    ∧ (w.toNat = 0x09 → decodeCommand w = .instr .putcTab)
    ∧ (w.toNat = 0x08 → decodeCommand w = .instr .putcBs)
    ∧ (w.toNat < 0x100 → w.toNat ≠ 0x0A → w.toNat ≠ 0x09 → w.toNat ≠ 0x08 →
        decodeCommand w = .instr (.putcPlain (BitVec.ofNat 8 w.toNat)))
    ∧ (0x4000 ≤ w.toNat → w.toNat < 0x4100 →
        decodeCommand w =
          .instr (.setcolor (BitVec.ofNat 4 (w.toNat % 16)) (BitVec.ofNat 4 (w.toNat / 16 % 16))))
    ∧ (w.toNat = 0x8000 → decodeCommand w = .instr .init)
    ∧ (0x100 ≤ w.toNat → (w.toNat < 0x4000 ∨ 0x4100 ≤ w.toNat) → w.toNat ≠ 0x8000 →
        ∃ why, decodeCommand w = .reserved why)

/-- R78 by the numeric value of the scancode. -/
def Obligations.ScancodesClassifyByValue : Prop :=
  ∀ sc : Byte,
    (sc.toNat = 0x2A → decodeScancode sc = .scShiftMake .left)
    ∧ (sc.toNat = 0x36 → decodeScancode sc = .scShiftMake .right)
    ∧ (sc.toNat = 0xAA → decodeScancode sc = .scShiftBreak .left)
    ∧ (sc.toNat = 0xB6 → decodeScancode sc = .scShiftBreak .right)
    ∧ (sc.toNat = 0x3A → decodeScancode sc = .scCapsMake)
    ∧ (0x80 ≤ sc.toNat → sc.toNat ≠ 0xAA → sc.toNat ≠ 0xB6 →
        decodeScancode sc = .scBreakOther (BitVec.ofNat 7 (sc.toNat - 0x80)))
    ∧ (sc.toNat < 0x80 → sc.toNat ≠ 0x2A → sc.toNat ≠ 0x36 → sc.toNat ≠ 0x3A →
        decodeScancode sc = .scKeyMake (BitVec.ofNat 7 sc.toNat))

/-- Each decodable input is admitted by the opcode-table row of the instruction it decodes to, and by no
other row. -/
def Obligations.ExactlyOneOpcodeRowAdmitsAnInput : Prop :=
  ∀ (x : Input) (i : Instr), decode x = .instr i →
    (opcodeRow i).admits x = true ∧ ∀ j : Instr, (opcodeRow j).admits x = true → opcodeRow j = opcodeRow i

/-- Words and scancodes of the vectors of 95_test_vectors.md sections 2.1 and 2.11. -/
def Obligations.VectorWordsDecode : Prop :=
  decodeCommand 0x000A = .instr .putcNl
    ∧ decodeCommand 0x0041 = .instr (.putcPlain 0x41)
    ∧ decodeCommand 0x401F = .instr (.setcolor 15 1)
    ∧ decodeCommand 0x8000 = .instr .init
    ∧ decodeCommand 0x3F41 = .reserved .zBits
    ∧ decodeCommand 0x8001 = .reserved .initOperand
    ∧ decodeCommand 0xC000 = .reserved .opcode
    ∧ decodeScancode 0x1E = .scKeyMake 0x1E
    ∧ decodeScancode 0xB6 = .scShiftBreak .right
    ∧ decodeScancode 0xE0 = .scBreakOther 0x60

/-- R74: a SETCOLOR word's operands are its bits 3:0 and 7:4, every value is legal, and the attribute they
form, its bits 7:0, is `fg | (bg << 4)`. -/
def Obligations.SetcolorOperandsFormTheAttribute : Prop :=
  ∀ a : Byte,
    decodeCommand ((0x40 : Byte) ++ a) = .instr (.setcolor (a.extractLsb' 0 4) (a.extractLsb' 4 4))
    ∧ attrByte (a.extractLsb' 0 4) (a.extractLsb' 4 4) = a
    ∧ (a.extractLsb' 0 4).zeroExtend 8 ||| ((a.extractLsb' 4 4).zeroExtend 8 <<< 4) = a

/-! ## Steps -/

/-- A step runs the decoded instruction: a command word lined up next is taken, and the step is its
instruction's meaning. -/
def Obligations.StepRunsTheCommand : Prop :=
  ∀ (s : State) (w : Word) (rest : List Input) (i : Instr),
    s.running → s.inputs = .command w :: rest → decodeCommand w = .instr i →
      step s = exec i { s with inputs := rest }

/-- A step in phase READ runs the instruction the scancode read stands for (R131). -/
def Obligations.StepRunsTheScancode : Prop :=
  ∀ (s : State) (sc : Byte) (rest : List Input),
    s.running → s.phase = .read → s.inputs = .keyboard sc :: rest →
      step s = exec (decodeScancode sc) { s with inputs := rest }

/-- KBD_POLL (R130): one status read, and READ exactly when the ready bit is set. -/
def Obligations.PollReadsTheStatusPort : Prop :=
  ∀ (s : State) (status : Byte) (rest : List Input),
    s.running → s.phase = .poll → s.inputs = .keyboard status :: rest →
      step s = .next { s with
        inputs := rest
        phase := if status &&& s.params.kbdReadyMask ≠ 0 then .read else .poll
        trace := s.trace ++ [.portIn s.params.kbdStatusPort status] }

/-- R73, R163: a host step with a reserved word raises ErrReservedCommand with the word and changes nothing
else, whatever `init_done` is; every other word is a CMD16 form. -/
def Obligations.ReservedWordsRaiseTheirFault : Prop :=
  ∀ (s : State) (w : Word) (rest : List Input),
    s.running → s.inputs = .command w :: rest →
      ((w.extractLsb' 14 2 = 3 ∨ w.extractLsb' 8 6 ≠ 0 ∨ (w.extractLsb' 14 2 = 2 ∧ w.extractLsb' 0 8 ≠ 0)) →
        step s = .next { s with inputs := rest, fault := some (.reservedCommand w) })
      ∧ (¬(w.extractLsb' 14 2 = 3 ∨ w.extractLsb' 8 6 ≠ 0
            ∨ (w.extractLsb' 14 2 = 2 ∧ w.extractLsb' 0 8 ≠ 0)) →
        ∃ i : Instr, decodeCommand w = .instr i ∧ i.isCommand = true ∧ encode i = .command w)

/-- R166: a faulted block takes no further step of either kind, whatever is lined up. -/
def Obligations.FaultedBlockTakesNoStep : Prop :=
  ∀ (s : State) (cause : Cause) (x : List Input), s.fault = some cause →
    step { s with inputs := x } = .fault (.blockStopped cause)

/-- U12: a configuration outside the spec is refused. -/
def Obligations.ConfigurationsOutsideTheSpecAreRefused : Prop :=
  ∀ s : State, s.fault = none → s.params.wf = false → step s = .refused .configurationOutsideSpec

/-- With nothing lined up, a step takes the environment's next free input as if it had been lined up
(entry 7: the model's own). -/
def Obligations.FreeInputActsAsIfLinedUp : Prop :=
  ∀ s : State, s.inputs = [] →
    step s = step { s with inputs := [Config.environmentInput s.draws], draws := s.draws + 1 }

/-- An instruction placed where the next step takes it is what that step runs (entry 6: the model's own).
-/
def Obligations.FetchWordIsRunNext : Prop :=
  ∀ (s : State) (nbits w : Nat) (i : Instr), s.running → decodeTableWord nbits w = some i →
    step (s.withFetchWord nbits w) = exec i { s with phase := if nbits ≤ 8 then .read else s.phase }

/-- R81: `KEY sc` is one ready status read and one data read, and runs the scancode's instruction. -/
def Obligations.KeyLineIsAPollAndARead : Prop :=
  ∀ (s : State) (sc : Byte) (rest : List Input),
    s.running → s.phase = .poll → s.inputs = (Line.key sc).inputs s.params ++ rest →
      Sys2Proof.core.run 2 s = exec (decodeScancode sc) { s with
        inputs := rest
        phase := .read
        trace := s.trace ++ [.portIn s.params.kbdStatusPort s.params.kbdReadyMask] }

/-- R81, R132, R174: `IDLE n` is `n` status reads and nothing else; a poll of any length is admitted. -/
def Obligations.IdlePollsForAnyLength : Prop :=
  ∀ (n : Nat) (s : State) (rest : List Input),
    s.running → s.phase = .poll → s.inputs = (Line.idle n).inputs s.params ++ rest →
      Sys2Proof.core.run n s = .next { s with
        inputs := rest
        trace := s.trace ++ List.replicate n (.portIn s.params.kbdStatusPort 0) }

/-! ## INIT and SETCOLOR -/

/-- INIT (R107), in any state of a configuration the spec covers: every cell blank under DEFAULT_ATTR,
cursor (0,0), init_done, one CURSOR_SYNC; everything else as before. -/
def Obligations.InitClearsTheScreen : Prop :=
  encode .init = .command 0x8000
  ∧ ∀ s : State, s.params.wf = true →
    ∃ t : State, exec .init s = .next t
      ∧ t = { s with
          attr := s.params.defaultAttr
          cursorCol := 0
          cursorRow := 0
          initDone := true
          mem := t.mem
          crtc := syncedCrtc s.params 0
          trace := s.trace
            ++ (List.range 2000).map
                (fun i => .memWrite (s.params.fbBase + 2 * i) (blank s.params.defaultAttr))
            ++ syncEvents s.params 0 }
      ∧ (∀ i : Nat, i < 2000 → t.cell i = blank s.params.defaultAttr)
      ∧ sameBytesOutside s.params.fbBase 4000 s t

/-- SETCOLOR (R108): the attribute, and nothing else, in every state. -/
def Obligations.SetcolorSetsTheAttributeOnly : Prop :=
  ∀ (s : State) (fg bg : Colour),
    encode (.setcolor fg bg) = .command ((0x40 : Byte) ++ (bg ++ fg))
    ∧ exec (.setcolor fg bg) s = .next { s with attr := bg ++ fg }

/-- The property of vector S1, at every cursor position: a plain character after SETCOLOR makes a cell whose
attribute is `fg | (bg << 4)`, under the old cursor, or, at (79,24), where the scroll moves it, at (79,23). -/
def Obligations.SetcolorThenPlainColoursTheCell : Prop :=
  ∀ (s : State) (fg bg : Colour) (c : Byte),
    s.params.wf = true → s.initDone = true → s.cursorCol.toNat < 80 → s.cursorRow.toNat < 25 →
    (s.cursorCol.toNat = 79 → s.cursorRow.toNat = 24 → s.mem.wf) →
      ∃ u t : State, exec (.setcolor fg bg) s = .next u ∧ exec (.putcPlain c) u = .next t
        ∧ cellAttr (t.cell (if s.cursorCol.toNat = 79 ∧ s.cursorRow.toNat = 24 then cellIndex 79 23
              else cellIndex s.cursorCol.toNat s.cursorRow.toNat))
            = fg.zeroExtend 8 ||| (bg.zeroExtend 8 <<< 4)
        ∧ cellChar (t.cell (if s.cursorCol.toNat = 79 ∧ s.cursorRow.toNat = 24 then cellIndex 79 23
              else cellIndex s.cursorCol.toNat s.cursorRow.toNat)) = c

/-! ## PUTC -/

/-- R106, R161: before INIT every PUTC form raises ErrNotInitialized with its character and has no other
effect. -/
def Obligations.PutcBeforeInitRaises : Prop :=
  ∀ (i : Instr) (c : Byte) (s : State), i.putcChar = some c → s.initDone = false →
    exec i s = .next { s with fault := some (.notInitialized c) }

/-- PUTC.NL above the last row (R109): column 0 of the next row, one CURSOR_SYNC, nothing else. -/
def Obligations.NewlineMovesDown : Prop :=
  ∀ s : State, s.params.wf = true → s.initDone = true → s.cursorRow.toNat < 24 →
    exec .putcNl s = .next { s with
      cursorCol := 0
      cursorRow := BitVec.ofNat 5 (s.cursorRow.toNat + 1)
      crtc := syncedCrtc s.params (offsetOf 0 (s.cursorRow.toNat + 1))
      trace := s.trace ++ syncEvents s.params (offsetOf 0 (s.cursorRow.toNat + 1)) }

/-- PUTC.NL in the last row (R104, R105, R109): the framebuffer scrolls once and the row stays 24. -/
def Obligations.NewlineScrollsAtTheLastRow : Prop :=
  ∀ s : State, s.params.wf = true → s.mem.wf → s.initDone = true → s.cursorRow.toNat = 24 →
    ∃ t : State, exec .putcNl s = .next t
      ∧ t = { s with
          cursorCol := 0
          mem := t.mem
          crtc := syncedCrtc s.params (offsetOf 0 24)
          trace := s.trace ++ scrollTrace s.params s.cell s.attr ++ syncEvents s.params (offsetOf 0 24) }
      ∧ scrolledFrom s.cell s.attr t
      ∧ sameBytesOutside s.params.fbBase 4000 s t

/-- PUTC.TAB before column 76 (R110): the least multiple of 4 above the column; no cell is written. -/
def Obligations.TabMovesToTheNextStop : Prop :=
  ∀ s : State, s.params.wf = true → s.initDone = true → s.cursorCol.toNat < 76 →
    exec .putcTab s = .next { s with
      cursorCol := BitVec.ofNat 7 (4 * (s.cursorCol.toNat / 4 + 1))
      crtc := syncedCrtc s.params (offsetOf (4 * (s.cursorCol.toNat / 4 + 1)) s.cursorRow.toNat)
      trace := s.trace
        ++ syncEvents s.params (offsetOf (4 * (s.cursorCol.toNat / 4 + 1)) s.cursorRow.toNat) }

/-- PUTC.TAB from columns 76 to 79 above the last row (R110): column 0 of the next row. -/
def Obligations.TabOverflowsToTheNextRow : Prop :=
  ∀ s : State, s.params.wf = true → s.initDone = true →
    76 ≤ s.cursorCol.toNat → s.cursorCol.toNat < 80 → s.cursorRow.toNat < 24 →
      exec .putcTab s = .next { s with
        cursorCol := 0
        cursorRow := BitVec.ofNat 5 (s.cursorRow.toNat + 1)
        crtc := syncedCrtc s.params (offsetOf 0 (s.cursorRow.toNat + 1))
        trace := s.trace ++ syncEvents s.params (offsetOf 0 (s.cursorRow.toNat + 1)) }

/-- PUTC.TAB from columns 76 to 79 of the last row (R104, R105, R110): one scroll, cursor (0,24). -/
def Obligations.TabScrollsAtTheLastRow : Prop :=
  ∀ s : State, s.params.wf = true → s.mem.wf → s.initDone = true →
    76 ≤ s.cursorCol.toNat → s.cursorCol.toNat < 80 → s.cursorRow.toNat = 24 →
      ∃ t : State, exec .putcTab s = .next t
        ∧ t = { s with
            cursorCol := 0
            mem := t.mem
            crtc := syncedCrtc s.params (offsetOf 0 24)
            trace := s.trace ++ scrollTrace s.params s.cell s.attr
              ++ syncEvents s.params (offsetOf 0 24) }
        ∧ scrolledFrom s.cell s.attr t
        ∧ sameBytesOutside s.params.fbBase 4000 s t

/-- PUTC.BS at (0,0) (R111): no cell, no cursor movement, but the four cursor-register writes. -/
def Obligations.BackspaceAtTheOriginOnlySyncs : Prop :=
  ∀ s : State, s.params.wf = true → s.initDone = true → s.cursorCol = 0 → s.cursorRow = 0 →
    exec .putcBs s = .next { s with
      crtc := syncedCrtc s.params 0
      trace := s.trace ++ syncEvents s.params 0 }

/-- PUTC.BS off column 0 (R111): one column left, and the cell there blanked under the current attribute.
-/
def Obligations.BackspaceErasesToTheLeft : Prop :=
  ∀ s : State, s.params.wf = true → s.initDone = true →
    0 < s.cursorCol.toNat → s.cursorCol.toNat < 80 → s.cursorRow.toNat < 25 →
      ∃ t : State, exec .putcBs s = .next t
        ∧ t = { s with
            cursorCol := BitVec.ofNat 7 (s.cursorCol.toNat - 1)
            mem := t.mem
            crtc := syncedCrtc s.params (offsetOf (s.cursorCol.toNat - 1) s.cursorRow.toNat)
            trace := s.trace
              ++ [.memWrite (cellAddr s.params (cellIndex (s.cursorCol.toNat - 1) s.cursorRow.toNat))
                    (blank s.attr)]
              ++ syncEvents s.params (offsetOf (s.cursorCol.toNat - 1) s.cursorRow.toNat) }
        ∧ t.cell (cellIndex (s.cursorCol.toNat - 1) s.cursorRow.toNat) = blank s.attr
        ∧ sameBytesOutside
            (cellAddr s.params (cellIndex (s.cursorCol.toNat - 1) s.cursorRow.toNat)) 2 s t

/-- PUTC.BS at column 0 below row 0 (R111, C4): to (79, row-1), and that cell blanked. -/
def Obligations.BackspaceCrossesToThePreviousRow : Prop :=
  ∀ s : State, s.params.wf = true → s.initDone = true →
    s.cursorCol = 0 → 0 < s.cursorRow.toNat → s.cursorRow.toNat < 25 →
      ∃ t : State, exec .putcBs s = .next t
        ∧ t = { s with
            cursorCol := 79
            cursorRow := BitVec.ofNat 5 (s.cursorRow.toNat - 1)
            mem := t.mem
            crtc := syncedCrtc s.params (offsetOf 79 (s.cursorRow.toNat - 1))
            trace := s.trace
              ++ [.memWrite (cellAddr s.params (cellIndex 79 (s.cursorRow.toNat - 1))) (blank s.attr)]
              ++ syncEvents s.params (offsetOf 79 (s.cursorRow.toNat - 1)) }
        ∧ t.cell (cellIndex 79 (s.cursorRow.toNat - 1)) = blank s.attr
        ∧ sameBytesOutside (cellAddr s.params (cellIndex 79 (s.cursorRow.toNat - 1))) 2 s t

/-- PUTC.PLAIN before the last column (R112): the cell under the cursor, and one column right. -/
def Obligations.PlainWritesAndAdvances : Prop :=
  ∀ (s : State) (c : Byte), s.params.wf = true → s.initDone = true →
    s.cursorCol.toNat < 79 → s.cursorRow.toNat < 25 →
      ∃ t : State, exec (.putcPlain c) s = .next t
        ∧ t = { s with
            cursorCol := BitVec.ofNat 7 (s.cursorCol.toNat + 1)
            mem := t.mem
            crtc := syncedCrtc s.params (offsetOf (s.cursorCol.toNat + 1) s.cursorRow.toNat)
            trace := s.trace
              ++ [.memWrite (cellAddr s.params (cellIndex s.cursorCol.toNat s.cursorRow.toNat))
                    (s.attr ++ c)]
              ++ syncEvents s.params (offsetOf (s.cursorCol.toNat + 1) s.cursorRow.toNat) }
        ∧ t.cell (cellIndex s.cursorCol.toNat s.cursorRow.toNat) = s.attr ++ c
        ∧ sameBytesOutside (cellAddr s.params (cellIndex s.cursorCol.toNat s.cursorRow.toNat)) 2 s t

/-- PUTC.PLAIN in the last column above the last row (R112): the cell, and column 0 of the next row. -/
def Obligations.PlainWrapsToTheNextRow : Prop :=
  ∀ (s : State) (c : Byte), s.params.wf = true → s.initDone = true →
    s.cursorCol.toNat = 79 → s.cursorRow.toNat < 24 →
      ∃ t : State, exec (.putcPlain c) s = .next t
        ∧ t = { s with
            cursorCol := 0
            cursorRow := BitVec.ofNat 5 (s.cursorRow.toNat + 1)
            mem := t.mem
            crtc := syncedCrtc s.params (offsetOf 0 (s.cursorRow.toNat + 1))
            trace := s.trace
              ++ [.memWrite (cellAddr s.params (cellIndex 79 s.cursorRow.toNat)) (s.attr ++ c)]
              ++ syncEvents s.params (offsetOf 0 (s.cursorRow.toNat + 1)) }
        ∧ t.cell (cellIndex 79 s.cursorRow.toNat) = s.attr ++ c
        ∧ sameBytesOutside (cellAddr s.params (cellIndex 79 s.cursorRow.toNat)) 2 s t

/-- PUTC.PLAIN at (79,24) (R104, R105, R112): the cell is written before the scroll, which moves it to
(79,23); the cursor goes to (0,24). -/
def Obligations.PlainScrollsAtTheLastCell : Prop :=
  ∀ (s : State) (c : Byte), s.params.wf = true → s.mem.wf → s.initDone = true →
    s.cursorCol.toNat = 79 → s.cursorRow.toNat = 24 →
      ∃ t : State, exec (.putcPlain c) s = .next t
        ∧ t = { s with
            cursorCol := 0
            mem := t.mem
            crtc := syncedCrtc s.params (offsetOf 0 24)
            trace := s.trace ++ [.memWrite (s.params.fbBase + 3998) (s.attr ++ c)]
              ++ scrollTrace s.params (fun i => if i = 1999 then s.attr ++ c else s.cell i) s.attr
              ++ syncEvents s.params (offsetOf 0 24) }
        ∧ scrolledFrom (fun i => if i = 1999 then s.attr ++ c else s.cell i) s.attr t
        ∧ sameBytesOutside s.params.fbBase 4000 s t

/-! ## Scancodes -/

/-- SC.SHIFT_MAKE (R136, with the read of R131): the shift latch set by either key. -/
def Obligations.ShiftMakeSetsTheLatch : Prop :=
  ∀ (s : State) (k : ShiftKey),
    encode (.scShiftMake .left) = .keyboard 0x2A ∧ encode (.scShiftMake .right) = .keyboard 0x36
    ∧ exec (.scShiftMake k) s = .next { s with
        shiftHeld := true
        phase := .poll
        trace := s.trace ++ [.portIn s.params.kbdDataPort (match k with | .left => 0x2A | .right => 0x36)] }

/-- SC.SHIFT_BREAK (R137, with the read of R131): the one latch cleared by either key. -/
def Obligations.ShiftBreakClearsTheLatch : Prop :=
  ∀ (s : State) (k : ShiftKey),
    encode (.scShiftBreak .left) = .keyboard 0xAA ∧ encode (.scShiftBreak .right) = .keyboard 0xB6
    ∧ exec (.scShiftBreak k) s = .next { s with
        shiftHeld := false
        phase := .poll
        trace := s.trace ++ [.portIn s.params.kbdDataPort (match k with | .left => 0xAA | .right => 0xB6)] }

/-- SC.CAPS_MAKE (R138, with the read of R131): the caps latch toggles, so two makes restore it, and the
break code leaves it. -/
def Obligations.CapsMakeTogglesTheLatch : Prop :=
  ∀ s : State,
    encode .scCapsMake = .keyboard 0x3A
    ∧ (∃ t : State, exec .scCapsMake s = .next t
        ∧ t = { s with
            capsLocked := !s.capsLocked
            phase := .poll
            trace := s.trace ++ [.portIn s.params.kbdDataPort 0x3A] }
        ∧ ∃ u : State, exec .scCapsMake t = .next u ∧ u.capsLocked = s.capsLocked)
    ∧ ∃ v : State, exec (decodeScancode 0xBA) s = .next v ∧ v.capsLocked = s.capsLocked

/-- SC.BREAK_OTHER (R139, with the read of R131): the phase and the read event only; prefix bytes and the
caps break among them (R79). -/
def Obligations.OtherBreaksDoNothing : Prop :=
  ∀ (s : State) (sc : Byte), 0x80 ≤ sc.toNat → sc.toNat ≠ 0xAA → sc.toNat ≠ 0xB6 →
    decodeScancode sc = .scBreakOther (BitVec.ofNat 7 (sc.toNat - 0x80))
    ∧ exec (.scBreakOther (BitVec.ofNat 7 (sc.toNat - 0x80))) s = .next { s with
        phase := .poll
        trace := s.trace ++ [.portIn s.params.kbdDataPort sc] }

/-- SC.KEY_MAKE of a key with no mapping (R140, R142): no display activity, and no fault before INIT. -/
def Obligations.UnmappedKeyDoesNothing : Prop :=
  ∀ (s : State) (key : Key),
    decodeKey s.params key (xor s.shiftHeld s.capsLocked) = none →
      exec (.scKeyMake key) s = .next { s with
        phase := .poll
        trace := s.trace ++ [.portIn s.params.kbdDataPort ((0 : BitVec 1) ++ key)] }

/-- SC.KEY_MAKE of a mapped key after INIT (R140, R142): the read, and then the PUTC of the character in the
same step, with the line discipline where it is NL, TAB or BS. -/
def Obligations.MappedKeyIsOnePutc : Prop :=
  ∀ (s : State) (key : Key) (c : Byte),
    s.params.wf = true → s.initDone = true → s.cursorInRange →
    decodeKey s.params key (xor s.shiftHeld s.capsLocked) = some c →
      ∃ t : State, exec (.scKeyMake key) s = .next t
        ∧ exec (putcForm c) { s with
            phase := .poll
            trace := s.trace ++ [.portIn s.params.kbdDataPort ((0 : BitVec 1) ++ key)] } = .next t
        ∧ t.shiftHeld = s.shiftHeld ∧ t.capsLocked = s.capsLocked ∧ t.phase = .poll
        ∧ t.attr = s.attr ∧ t.fault = s.fault

/-- SC.KEY_MAKE of a mapped key before INIT (R140, R164): the fault, and every other change of the step,
the phase and the read event included, discarded. -/
def Obligations.MappedKeyBeforeInitRaises : Prop :=
  ∀ (s : State) (key : Key) (c : Byte), s.initDone = false →
    decodeKey s.params key (xor s.shiftHeld s.capsLocked) = some c →
      exec (.scKeyMake key) s = .next { s with fault := some (.notInitialized c) }

/-- R141: the shifted selector is the exclusive or of the two latches, line by line. -/
def Obligations.ShiftedSelectorTable : Prop :=
  ∀ s : State,
    (s.shiftHeld = false → s.capsLocked = false → s.shifted = false)
    ∧ (s.shiftHeld = true → s.capsLocked = false → s.shifted = true)
    ∧ (s.shiftHeld = false → s.capsLocked = true → s.shifted = true)
    ∧ (s.shiftHeld = true → s.capsLocked = true → s.shifted = false)

/-- R134, R135: the results every KEYMAP fixes. -/
def Obligations.FixedKeymapEntries : Prop :=
  ∀ p : Params, p.wf = true →
    decodeKey p 0x1E false = some 0x61 ∧ decodeKey p 0x1E true = some 0x41
    ∧ decodeKey p 0x01 false = none ∧ decodeKey p 0x01 true = none

/-! ## Operations -/

/-- R52, R57, R102: a cell stored reads back, its character byte at the lower address, and no other byte
changes. -/
def Obligations.CellStoreIsLittleEndian : Prop :=
  ∀ (s : State) (col row : Nat) (v : Word), col < 80 → row < 25 →
    ∃ t : State, s.cellWrite col row v = .ok t
      ∧ t = { s with
          mem := t.mem
          trace := s.trace ++ [.memWrite (s.params.fbBase + 2 * (row * 80 + col)) v] }
      ∧ t.cell (row * 80 + col) = v
      ∧ (t.mem.read (s.params.fbBase + 2 * (row * 80 + col))).toNat = v.toNat % 256
      ∧ (t.mem.read (s.params.fbBase + 2 * (row * 80 + col) + 1)).toNat = v.toNat / 256
      ∧ sameBytesOutside (s.params.fbBase + 2 * (row * 80 + col)) 2 s t

/-- R103: CURSOR_SYNC is exactly four port writes, low byte first, and leaves the CRTC at the cursor's
linear offset. -/
def Obligations.CursorSyncWritesTheOffset : Prop :=
  ∀ s : State, s.params.wf = true → s.cursorInRange →
    ∃ t : State, s.cursorSync = .ok t
      ∧ t = { s with
          crtc := t.crtc
          trace := s.trace
            ++ [.portOut s.params.crtcIndexPort s.params.curLoIndex,
                .portOut s.params.crtcDataPort
                  (BitVec.ofNat 8 ((s.cursorRow.toNat * 80 + s.cursorCol.toNat) % 256)),
                .portOut s.params.crtcIndexPort s.params.curHiIndex,
                .portOut s.params.crtcDataPort
                  (BitVec.ofNat 8 ((s.cursorRow.toNat * 80 + s.cursorCol.toNat) / 256))] }
      ∧ t.crtc.index = s.params.curHiIndex
      ∧ t.crtc.location.toNat = s.cursorRow.toNat * 80 + s.cursorCol.toNat

/-- R55, R184: from the second of CURSOR_SYNC's port writes until the fourth, the CUR_HI_INDEX select between
them included, the CRTC holds `old_hi : new_lo`; the fourth ends it. -/
def Obligations.CursorRegistersTearBetweenBytes : Prop :=
  ∀ (p : Params) (o : Outside) (off : Word), p.wf = true →
    (∀ k : Nat, k = 2 ∨ k = 3 →
      ∃ o' : Outside, performAll p ((syncEvents p off).take k) o = some o'
        ∧ o'.mem = o.mem
        ∧ o'.crtc.location = o.crtc.hi ++ off.extractLsb' 0 8)
    ∧ ∃ o' : Outside, performAll p (syncEvents p off) o = some o'
        ∧ o'.mem = o.mem
        ∧ o'.crtc.location = off

/-- R104: the model's SCROLL is its pseudocode, one cell read and written at a time in ascending order, in
memory, registers and events alike, with the result the rule states: rows move up, row 24 is blank under
the current attribute, the cursor and everything else stay, and the events are 1920 MR/MW pairs and then
80 MW. -/
def Obligations.ScrollIsItsLoop : Prop :=
  ∀ s : State, s.mem.wf →
    s.scroll = s.scrollLoop
    ∧ s.scroll = { s with mem := s.scroll.mem, trace := s.trace ++ scrollTrace s.params s.cell s.attr }
    ∧ scrolledFrom s.cell s.attr s.scroll
    ∧ sameBytesOutside s.params.fbBase 4000 s s.scroll

/-! ## Sequences -/

/-- S3, R112, C9: 80 plain characters from column 0 fill the row. Above row 24 they end at column 0 of the
next row, with no scroll; in row 24 they end at (0,24) after exactly one scroll, their text in row 23. -/
def Obligations.PlainCharactersFillARow : Prop :=
  ∀ (s : State) (cs : List Byte), s.params.wf = true → s.fault = none → s.initDone = true →
    s.cursorCol = 0 → cs.length = 80 →
      (s.cursorRow.toNat < 24 →
        ∃ t : State, execAll (cs.map .putcPlain) s = .next t
          ∧ t = { s with
              cursorRow := BitVec.ofNat 5 (s.cursorRow.toNat + 1)
              mem := t.mem
              crtc := syncedCrtc s.params (offsetOf 0 (s.cursorRow.toNat + 1))
              trace := s.trace ++ plainEvents s.params s.attr s.cursorRow.toNat 0 cs }
          ∧ (∀ i : Nat, t.cell i = overRow s.cell s.attr s.cursorRow.toNat cs i)
          ∧ sameBytesOutside (cellAddr s.params (s.cursorRow.toNat * 80)) 160 s t)
      ∧ (s.cursorRow.toNat = 24 → s.mem.wf →
        ∃ t : State, execAll (cs.map .putcPlain) s = .next t
          ∧ t = { s with
              mem := t.mem
              crtc := syncedCrtc s.params (offsetOf 0 24)
              trace := s.trace ++ plainEvents s.params s.attr 24 0 (cs.take 79)
                ++ [.memWrite (s.params.fbBase + 3998) (s.attr ++ cs.getD 79 0)]
                ++ scrollTrace s.params (overRow s.cell s.attr 24 cs) s.attr
                ++ syncEvents s.params (offsetOf 0 24) }
          ∧ scrolledFrom (overRow s.cell s.attr 24 cs) s.attr t
          ∧ sameBytesOutside s.params.fbBase 4000 s t)

/-- R109, C8: `n` newlines from row `r` scroll exactly `max(0, r + n - 24)` times: the events are, newline by
newline, a CURSOR_SYNC alone or one whole SCROLL and then a CURSOR_SYNC. The row ends at `min(24, r + n)`. -/
def Obligations.NewlinesScrollByTheirExcess : Prop :=
  ∀ (n : Nat) (s : State), s.params.wf = true → s.mem.wf → s.fault = none → s.initDone = true →
    s.cursorRow.toNat < 25 → 0 < n →
      ∃ t : State, execAll (List.replicate n .putcNl) s = .next t
        ∧ t = { s with
            cursorCol := 0
            cursorRow := BitVec.ofNat 5 (min 24 (s.cursorRow.toNat + n))
            mem := t.mem
            crtc := syncedCrtc s.params (offsetOf 0 (min 24 (s.cursorRow.toNat + n)))
            trace := s.trace
              ++ (List.range n).flatMap (newlineEvents s.params s.cell s.attr s.cursorRow.toNat) }
        ∧ (t.trace.countP Event.isRead
            = s.trace.countP Event.isRead + 1920 * (s.cursorRow.toNat + n - 24))
        ∧ (∀ i : Nat, i < 2000 →
            t.cell i = scrolledUp s.cell s.attr (s.cursorRow.toNat + n - 24) i)
        ∧ sameBytesOutside s.params.fbBase 4000 s t

/-- R82, R113: a WRITE lined up runs as the PUTC of each byte in sequence order, and none of them raises a
fault. -/
def Obligations.WriteIsPutcOfEachByte : Prop :=
  ∀ (bs : List Byte) (s : State) (rest : List Input),
    s.running → s.cursorInRange → s.initDone = true → s.inputs = (Line.write bs).inputs s.params ++ rest →
      ∃ t : State, Sys2Proof.core.run bs.length s = .next t
        ∧ execAll (bs.map putcForm) { s with inputs := rest } = .next t
        ∧ t.fault = none

/-- R82, R114: WRITE_STRING is WRITE of the bytes before the first NUL. -/
def Obligations.WriteStringStopsAtTheTerminator : Prop :=
  ∀ (p : Params) (text after : List Byte), 0x00 ∉ text →
    (Line.writeString (text ++ 0x00 :: after)).inputs p = (Line.write text).inputs p
    ∧ (Line.writeString text).inputs p = (Line.write text).inputs p

/-! ## Reset -/

/-- R38, R180: what power-on leaves, for every value of what the spec leaves unspecified. -/
def Obligations.PowerOnState : Prop :=
  ∀ (p : Params) (d : PowerOnDraws),
    (State.powerOn p d).initDone = false ∧ (State.powerOn p d).shiftHeld = false
    ∧ (State.powerOn p d).capsLocked = false ∧ (State.powerOn p d).phase = .poll
    ∧ (State.powerOn p d).fault = none ∧ (State.powerOn p d).trace = []
    ∧ (State.powerOn p d).cursorCol = d.cursorCol ∧ (State.powerOn p d).cursorRow = d.cursorRow
    ∧ (State.powerOn p d).attr = d.attr ∧ (State.powerOn p d).mem = d.mem
    ∧ (State.powerOn p d).crtc = d.crtc

/-- The model's reset state: a running configuration that meets the invariant, at the values entries 2, 3
and 4 choose (the model's choice, not the spec's). -/
def Obligations.ResetMeetsTheInvariant : Prop :=
  State.reset.Inv ∧ State.reset.running

/-! ## The whole machine -/

/-- R37: every step keeps the invariant: memory in canonical form and inside the window, the cursor in
range, and, once INIT has run, the CRTC at the cursor's offset. -/
def Obligations.StepKeepsTheInvariant : Prop :=
  ∀ s t : State, s.Inv → step s = .next t → t.Inv

/-- R11, R12, R61: the events a step appends, performed one at a time in order on what lay outside before,
give exactly what lies outside after; every load answers what memory then holds. -/
def Obligations.EventsExplainEveryStep : Prop :=
  ∀ s t : State, s.mem.wf → step s = .next t →
    ∃ es : List Event, t.trace = s.trace ++ es ∧ performAll s.params es s.outside = some t.outside

/-- R59: every event of every step lies in the complete map of what the block touches. -/
def Obligations.EveryAccessIsInTheMap : Prop :=
  ∀ s t : State, step s = .next t →
    ∃ es : List Event, t.trace = s.trace ++ es ∧ ∀ e ∈ es, e.inMap s.params

/-- R115, R160: a running block whose cursor is in range answers a next state, whatever the input. A raised
fault (a reserved word, a PUTC before INIT) is a next state only in the model's form (entry 5), and the input
is one lined up or a free one in the model's form (entries 6 and 7). -/
def Obligations.RunningBlockAlwaysSteps : Prop :=
  ∀ s : State, s.running → s.cursorInRange → ∃ t : State, step s = .next t

/-- R12, R164: a step that raises a fault changes nothing but `fault`. That the fault is a next state, with
the input taken, is the model's form (entries 5 and 6). -/
def Obligations.FaultingStepChangesOnlyTheFault : Prop :=
  ∀ s t : State, step s = .next t → t.fault ≠ none →
    t = { s with fault := t.fault, inputs := t.inputs, draws := t.draws }

/-- R161: the two faults, their causes, conditions and recorded information. -/
def Obligations.FaultsAreRaisedExactlyWhenNamed : Prop :=
  ∀ (s t : State) (x : Input) (rest : List Input),
    s.inputs = x :: rest → step s = .next t →
      (∀ w : Word, t.fault = some (.reservedCommand w) ↔
        x = .command w ∧ ∃ why, decodeCommand w = .reserved why)
      ∧ (∀ c : Byte, t.fault = some (.notInitialized c) ↔
        s.initDone = false
        ∧ ((∃ w i, x = .command w ∧ decodeCommand w = .instr i ∧ i.putcChar = some c)
          ∨ (∃ sc key, s.phase = .read ∧ x = .keyboard sc ∧ decodeScancode sc = .scKeyMake key
              ∧ decodeKey s.params key (xor s.shiftHeld s.capsLocked) = some c)))
      ∧ (∀ w : Word, (Cause.reservedCommand w).code = 1) ∧ (∀ c : Byte, (Cause.notInitialized c).code = 2)

/-- R143: a display command neither reads nor writes the latches or the phase. -/
def Obligations.DisplayCommandsIgnoreTheLatches : Prop :=
  ∀ (i : Instr) (s : State) (shift caps : Bool) (ph : Phase), i.isCommand = true →
    exec i (s.withLatches shift caps ph) = mapNext (fun t => t.withLatches shift caps ph) (exec i s)
    ∧ ∀ t : State, exec i s = .next t →
        t.shiftHeld = s.shiftHeld ∧ t.capsLocked = s.capsLocked ∧ t.phase = s.phase

/-- R21 to R26: each field changes only by the instructions the spec names as its writers; the parameters
by none. -/
def Obligations.FieldsHaveOnlyTheirWriters : Prop :=
  ∀ (i : Instr) (s t : State), exec i s = .next t →
    (t.attr ≠ s.attr → i = .init ∨ ∃ fg bg, i = .setcolor fg bg)
    ∧ (t.initDone ≠ s.initDone → i = .init ∧ t.initDone = true)
    ∧ (t.shiftHeld ≠ s.shiftHeld → ∃ k, i = .scShiftMake k ∨ i = .scShiftBreak k)
    ∧ (t.capsLocked ≠ s.capsLocked → i = .scCapsMake)
    ∧ (t.phase ≠ s.phase → i.isCommand = false)
    ∧ ((t.cursorCol ≠ s.cursorCol ∨ t.cursorRow ≠ s.cursorRow ∨ t.crtc ≠ s.crtc) →
        i = .init ∨ (∃ c, i.putcChar = some c) ∨ ∃ key, i = .scKeyMake key)
    ∧ ((∃ a, t.mem.read a ≠ s.mem.read a) →
        i = .init ∨ (∃ c, i.putcChar = some c) ∨ ∃ key, i = .scKeyMake key)
    ∧ t.params = s.params ∧ t.inputs = s.inputs ∧ t.draws = s.draws

/-- R24, R29, R30: over any step, `init_done` is never cleared, the parameters never change, and the event
list only grows. -/
def Obligations.StepsNeverUndoInit : Prop :=
  ∀ s t : State, step s = .next t →
    (s.initDone = true → t.initDone = true) ∧ t.params = s.params ∧ s.fault = none
    ∧ ∃ es : List Event, t.trace = s.trace ++ es
end

