-- ==== Sys2Proof/Laws/State.lean ====
section
/-! SUPPORT. One lemma per field per update of the state, so that no proof unfolds a record update. -/

namespace Sys2Proof.Machine

/-! ## raise -/

@[simp] theorem State.raise_cursorCol (s : State) (c : Cause) :
    (s.raise c).cursorCol = s.cursorCol := rfl

@[simp] theorem State.raise_cursorRow (s : State) (c : Cause) :
    (s.raise c).cursorRow = s.cursorRow := rfl

@[simp] theorem State.raise_attr (s : State) (c : Cause) :
    (s.raise c).attr = s.attr := rfl

@[simp] theorem State.raise_initDone (s : State) (c : Cause) :
    (s.raise c).initDone = s.initDone := rfl

@[simp] theorem State.raise_mem (s : State) (c : Cause) :
    (s.raise c).mem = s.mem := rfl

@[simp] theorem State.raise_shiftHeld (s : State) (c : Cause) :
    (s.raise c).shiftHeld = s.shiftHeld := rfl

@[simp] theorem State.raise_capsLocked (s : State) (c : Cause) :
    (s.raise c).capsLocked = s.capsLocked := rfl

@[simp] theorem State.raise_phase (s : State) (c : Cause) :
    (s.raise c).phase = s.phase := rfl

@[simp] theorem State.raise_fault (s : State) (c : Cause) :
    (s.raise c).fault = some c := rfl

@[simp] theorem State.raise_crtc (s : State) (c : Cause) :
    (s.raise c).crtc = s.crtc := rfl

@[simp] theorem State.raise_params (s : State) (c : Cause) :
    (s.raise c).params = s.params := rfl

@[simp] theorem State.raise_inputs (s : State) (c : Cause) :
    (s.raise c).inputs = s.inputs := rfl

@[simp] theorem State.raise_draws (s : State) (c : Cause) :
    (s.raise c).draws = s.draws := rfl

@[simp] theorem State.raise_trace (s : State) (c : Cause) :
    (s.raise c).trace = s.trace := rfl

/-! ## emit -/

@[simp] theorem State.emit_cursorCol (s : State) (es : List Event) :
    (s.emit es).cursorCol = s.cursorCol := rfl

@[simp] theorem State.emit_cursorRow (s : State) (es : List Event) :
    (s.emit es).cursorRow = s.cursorRow := rfl

@[simp] theorem State.emit_attr (s : State) (es : List Event) :
    (s.emit es).attr = s.attr := rfl

@[simp] theorem State.emit_initDone (s : State) (es : List Event) :
    (s.emit es).initDone = s.initDone := rfl

@[simp] theorem State.emit_mem (s : State) (es : List Event) :
    (s.emit es).mem = s.mem := rfl

@[simp] theorem State.emit_shiftHeld (s : State) (es : List Event) :
    (s.emit es).shiftHeld = s.shiftHeld := rfl

@[simp] theorem State.emit_capsLocked (s : State) (es : List Event) :
    (s.emit es).capsLocked = s.capsLocked := rfl

@[simp] theorem State.emit_phase (s : State) (es : List Event) :
    (s.emit es).phase = s.phase := rfl

@[simp] theorem State.emit_fault (s : State) (es : List Event) :
    (s.emit es).fault = s.fault := rfl

@[simp] theorem State.emit_crtc (s : State) (es : List Event) :
    (s.emit es).crtc = s.crtc := rfl

@[simp] theorem State.emit_params (s : State) (es : List Event) :
    (s.emit es).params = s.params := rfl

@[simp] theorem State.emit_inputs (s : State) (es : List Event) :
    (s.emit es).inputs = s.inputs := rfl

@[simp] theorem State.emit_draws (s : State) (es : List Event) :
    (s.emit es).draws = s.draws := rfl

@[simp] theorem State.emit_trace (s : State) (es : List Event) :
    (s.emit es).trace = s.trace ++ es := rfl

/-! ## setCol -/

@[simp] theorem State.setCol_cursorCol (s : State) (c : BitVec 7) :
    (s.setCol c).cursorCol = c := rfl

@[simp] theorem State.setCol_cursorRow (s : State) (c : BitVec 7) :
    (s.setCol c).cursorRow = s.cursorRow := rfl

@[simp] theorem State.setCol_attr (s : State) (c : BitVec 7) :
    (s.setCol c).attr = s.attr := rfl

@[simp] theorem State.setCol_initDone (s : State) (c : BitVec 7) :
    (s.setCol c).initDone = s.initDone := rfl

@[simp] theorem State.setCol_mem (s : State) (c : BitVec 7) :
    (s.setCol c).mem = s.mem := rfl

@[simp] theorem State.setCol_shiftHeld (s : State) (c : BitVec 7) :
    (s.setCol c).shiftHeld = s.shiftHeld := rfl

@[simp] theorem State.setCol_capsLocked (s : State) (c : BitVec 7) :
    (s.setCol c).capsLocked = s.capsLocked := rfl

@[simp] theorem State.setCol_phase (s : State) (c : BitVec 7) :
    (s.setCol c).phase = s.phase := rfl

@[simp] theorem State.setCol_fault (s : State) (c : BitVec 7) :
    (s.setCol c).fault = s.fault := rfl

@[simp] theorem State.setCol_crtc (s : State) (c : BitVec 7) :
    (s.setCol c).crtc = s.crtc := rfl

@[simp] theorem State.setCol_params (s : State) (c : BitVec 7) :
    (s.setCol c).params = s.params := rfl

@[simp] theorem State.setCol_inputs (s : State) (c : BitVec 7) :
    (s.setCol c).inputs = s.inputs := rfl

@[simp] theorem State.setCol_draws (s : State) (c : BitVec 7) :
    (s.setCol c).draws = s.draws := rfl

@[simp] theorem State.setCol_trace (s : State) (c : BitVec 7) :
    (s.setCol c).trace = s.trace := rfl

/-! ## setRow -/

@[simp] theorem State.setRow_cursorCol (s : State) (r : BitVec 5) :
    (s.setRow r).cursorCol = s.cursorCol := rfl

@[simp] theorem State.setRow_cursorRow (s : State) (r : BitVec 5) :
    (s.setRow r).cursorRow = r := rfl

@[simp] theorem State.setRow_attr (s : State) (r : BitVec 5) :
    (s.setRow r).attr = s.attr := rfl

@[simp] theorem State.setRow_initDone (s : State) (r : BitVec 5) :
    (s.setRow r).initDone = s.initDone := rfl

@[simp] theorem State.setRow_mem (s : State) (r : BitVec 5) :
    (s.setRow r).mem = s.mem := rfl

@[simp] theorem State.setRow_shiftHeld (s : State) (r : BitVec 5) :
    (s.setRow r).shiftHeld = s.shiftHeld := rfl

@[simp] theorem State.setRow_capsLocked (s : State) (r : BitVec 5) :
    (s.setRow r).capsLocked = s.capsLocked := rfl

@[simp] theorem State.setRow_phase (s : State) (r : BitVec 5) :
    (s.setRow r).phase = s.phase := rfl

@[simp] theorem State.setRow_fault (s : State) (r : BitVec 5) :
    (s.setRow r).fault = s.fault := rfl

@[simp] theorem State.setRow_crtc (s : State) (r : BitVec 5) :
    (s.setRow r).crtc = s.crtc := rfl

@[simp] theorem State.setRow_params (s : State) (r : BitVec 5) :
    (s.setRow r).params = s.params := rfl

@[simp] theorem State.setRow_inputs (s : State) (r : BitVec 5) :
    (s.setRow r).inputs = s.inputs := rfl

@[simp] theorem State.setRow_draws (s : State) (r : BitVec 5) :
    (s.setRow r).draws = s.draws := rfl

@[simp] theorem State.setRow_trace (s : State) (r : BitVec 5) :
    (s.setRow r).trace = s.trace := rfl

/-! ## setCrtc -/

@[simp] theorem State.setCrtc_cursorCol (s : State) (c : Crtc) :
    (s.setCrtc c).cursorCol = s.cursorCol := rfl

@[simp] theorem State.setCrtc_cursorRow (s : State) (c : Crtc) :
    (s.setCrtc c).cursorRow = s.cursorRow := rfl

@[simp] theorem State.setCrtc_attr (s : State) (c : Crtc) :
    (s.setCrtc c).attr = s.attr := rfl

@[simp] theorem State.setCrtc_initDone (s : State) (c : Crtc) :
    (s.setCrtc c).initDone = s.initDone := rfl

@[simp] theorem State.setCrtc_mem (s : State) (c : Crtc) :
    (s.setCrtc c).mem = s.mem := rfl

@[simp] theorem State.setCrtc_shiftHeld (s : State) (c : Crtc) :
    (s.setCrtc c).shiftHeld = s.shiftHeld := rfl

@[simp] theorem State.setCrtc_capsLocked (s : State) (c : Crtc) :
    (s.setCrtc c).capsLocked = s.capsLocked := rfl

@[simp] theorem State.setCrtc_phase (s : State) (c : Crtc) :
    (s.setCrtc c).phase = s.phase := rfl

@[simp] theorem State.setCrtc_fault (s : State) (c : Crtc) :
    (s.setCrtc c).fault = s.fault := rfl

@[simp] theorem State.setCrtc_crtc (s : State) (c : Crtc) :
    (s.setCrtc c).crtc = c := rfl

@[simp] theorem State.setCrtc_params (s : State) (c : Crtc) :
    (s.setCrtc c).params = s.params := rfl

@[simp] theorem State.setCrtc_inputs (s : State) (c : Crtc) :
    (s.setCrtc c).inputs = s.inputs := rfl

@[simp] theorem State.setCrtc_draws (s : State) (c : Crtc) :
    (s.setCrtc c).draws = s.draws := rfl

@[simp] theorem State.setCrtc_trace (s : State) (c : Crtc) :
    (s.setCrtc c).trace = s.trace := rfl

/-! ## setAttr -/

@[simp] theorem State.setAttr_cursorCol (s : State) (a : Byte) :
    (s.setAttr a).cursorCol = s.cursorCol := rfl

@[simp] theorem State.setAttr_cursorRow (s : State) (a : Byte) :
    (s.setAttr a).cursorRow = s.cursorRow := rfl

@[simp] theorem State.setAttr_attr (s : State) (a : Byte) :
    (s.setAttr a).attr = a := rfl

@[simp] theorem State.setAttr_initDone (s : State) (a : Byte) :
    (s.setAttr a).initDone = s.initDone := rfl

@[simp] theorem State.setAttr_mem (s : State) (a : Byte) :
    (s.setAttr a).mem = s.mem := rfl

@[simp] theorem State.setAttr_shiftHeld (s : State) (a : Byte) :
    (s.setAttr a).shiftHeld = s.shiftHeld := rfl

@[simp] theorem State.setAttr_capsLocked (s : State) (a : Byte) :
    (s.setAttr a).capsLocked = s.capsLocked := rfl

@[simp] theorem State.setAttr_phase (s : State) (a : Byte) :
    (s.setAttr a).phase = s.phase := rfl

@[simp] theorem State.setAttr_fault (s : State) (a : Byte) :
    (s.setAttr a).fault = s.fault := rfl

@[simp] theorem State.setAttr_crtc (s : State) (a : Byte) :
    (s.setAttr a).crtc = s.crtc := rfl

@[simp] theorem State.setAttr_params (s : State) (a : Byte) :
    (s.setAttr a).params = s.params := rfl

@[simp] theorem State.setAttr_inputs (s : State) (a : Byte) :
    (s.setAttr a).inputs = s.inputs := rfl

@[simp] theorem State.setAttr_draws (s : State) (a : Byte) :
    (s.setAttr a).draws = s.draws := rfl

@[simp] theorem State.setAttr_trace (s : State) (a : Byte) :
    (s.setAttr a).trace = s.trace := rfl

/-! ## setInitDone -/

@[simp] theorem State.setInitDone_cursorCol (s : State) :
    (s.setInitDone).cursorCol = s.cursorCol := rfl

@[simp] theorem State.setInitDone_cursorRow (s : State) :
    (s.setInitDone).cursorRow = s.cursorRow := rfl

@[simp] theorem State.setInitDone_attr (s : State) :
    (s.setInitDone).attr = s.attr := rfl

@[simp] theorem State.setInitDone_initDone (s : State) :
    (s.setInitDone).initDone = true := rfl

@[simp] theorem State.setInitDone_mem (s : State) :
    (s.setInitDone).mem = s.mem := rfl

@[simp] theorem State.setInitDone_shiftHeld (s : State) :
    (s.setInitDone).shiftHeld = s.shiftHeld := rfl

@[simp] theorem State.setInitDone_capsLocked (s : State) :
    (s.setInitDone).capsLocked = s.capsLocked := rfl

@[simp] theorem State.setInitDone_phase (s : State) :
    (s.setInitDone).phase = s.phase := rfl

@[simp] theorem State.setInitDone_fault (s : State) :
    (s.setInitDone).fault = s.fault := rfl

@[simp] theorem State.setInitDone_crtc (s : State) :
    (s.setInitDone).crtc = s.crtc := rfl

@[simp] theorem State.setInitDone_params (s : State) :
    (s.setInitDone).params = s.params := rfl

@[simp] theorem State.setInitDone_inputs (s : State) :
    (s.setInitDone).inputs = s.inputs := rfl

@[simp] theorem State.setInitDone_draws (s : State) :
    (s.setInitDone).draws = s.draws := rfl

@[simp] theorem State.setInitDone_trace (s : State) :
    (s.setInitDone).trace = s.trace := rfl

/-! ## setShift -/

@[simp] theorem State.setShift_cursorCol (s : State) (b : Bool) :
    (s.setShift b).cursorCol = s.cursorCol := rfl

@[simp] theorem State.setShift_cursorRow (s : State) (b : Bool) :
    (s.setShift b).cursorRow = s.cursorRow := rfl

@[simp] theorem State.setShift_attr (s : State) (b : Bool) :
    (s.setShift b).attr = s.attr := rfl

@[simp] theorem State.setShift_initDone (s : State) (b : Bool) :
    (s.setShift b).initDone = s.initDone := rfl

@[simp] theorem State.setShift_mem (s : State) (b : Bool) :
    (s.setShift b).mem = s.mem := rfl

@[simp] theorem State.setShift_shiftHeld (s : State) (b : Bool) :
    (s.setShift b).shiftHeld = b := rfl

@[simp] theorem State.setShift_capsLocked (s : State) (b : Bool) :
    (s.setShift b).capsLocked = s.capsLocked := rfl

@[simp] theorem State.setShift_phase (s : State) (b : Bool) :
    (s.setShift b).phase = s.phase := rfl

@[simp] theorem State.setShift_fault (s : State) (b : Bool) :
    (s.setShift b).fault = s.fault := rfl

@[simp] theorem State.setShift_crtc (s : State) (b : Bool) :
    (s.setShift b).crtc = s.crtc := rfl

@[simp] theorem State.setShift_params (s : State) (b : Bool) :
    (s.setShift b).params = s.params := rfl

@[simp] theorem State.setShift_inputs (s : State) (b : Bool) :
    (s.setShift b).inputs = s.inputs := rfl

@[simp] theorem State.setShift_draws (s : State) (b : Bool) :
    (s.setShift b).draws = s.draws := rfl

@[simp] theorem State.setShift_trace (s : State) (b : Bool) :
    (s.setShift b).trace = s.trace := rfl

/-! ## setCaps -/

@[simp] theorem State.setCaps_cursorCol (s : State) (b : Bool) :
    (s.setCaps b).cursorCol = s.cursorCol := rfl

@[simp] theorem State.setCaps_cursorRow (s : State) (b : Bool) :
    (s.setCaps b).cursorRow = s.cursorRow := rfl

@[simp] theorem State.setCaps_attr (s : State) (b : Bool) :
    (s.setCaps b).attr = s.attr := rfl

@[simp] theorem State.setCaps_initDone (s : State) (b : Bool) :
    (s.setCaps b).initDone = s.initDone := rfl

@[simp] theorem State.setCaps_mem (s : State) (b : Bool) :
    (s.setCaps b).mem = s.mem := rfl

@[simp] theorem State.setCaps_shiftHeld (s : State) (b : Bool) :
    (s.setCaps b).shiftHeld = s.shiftHeld := rfl

@[simp] theorem State.setCaps_capsLocked (s : State) (b : Bool) :
    (s.setCaps b).capsLocked = b := rfl

@[simp] theorem State.setCaps_phase (s : State) (b : Bool) :
    (s.setCaps b).phase = s.phase := rfl

@[simp] theorem State.setCaps_fault (s : State) (b : Bool) :
    (s.setCaps b).fault = s.fault := rfl

@[simp] theorem State.setCaps_crtc (s : State) (b : Bool) :
    (s.setCaps b).crtc = s.crtc := rfl

@[simp] theorem State.setCaps_params (s : State) (b : Bool) :
    (s.setCaps b).params = s.params := rfl

@[simp] theorem State.setCaps_inputs (s : State) (b : Bool) :
    (s.setCaps b).inputs = s.inputs := rfl

@[simp] theorem State.setCaps_draws (s : State) (b : Bool) :
    (s.setCaps b).draws = s.draws := rfl

@[simp] theorem State.setCaps_trace (s : State) (b : Bool) :
    (s.setCaps b).trace = s.trace := rfl

/-! ## storeCells -/

@[simp] theorem State.storeCells_cursorCol (s : State) (i : Nat) (vs : List Word) :
    (s.storeCells i vs).cursorCol = s.cursorCol := rfl

@[simp] theorem State.storeCells_cursorRow (s : State) (i : Nat) (vs : List Word) :
    (s.storeCells i vs).cursorRow = s.cursorRow := rfl

@[simp] theorem State.storeCells_attr (s : State) (i : Nat) (vs : List Word) :
    (s.storeCells i vs).attr = s.attr := rfl

@[simp] theorem State.storeCells_initDone (s : State) (i : Nat) (vs : List Word) :
    (s.storeCells i vs).initDone = s.initDone := rfl

@[simp] theorem State.storeCells_mem (s : State) (i : Nat) (vs : List Word) :
    (s.storeCells i vs).mem = s.mem.writeRun (cellAddr s.params i) (cellsToBytes vs) := rfl

@[simp] theorem State.storeCells_shiftHeld (s : State) (i : Nat) (vs : List Word) :
    (s.storeCells i vs).shiftHeld = s.shiftHeld := rfl

@[simp] theorem State.storeCells_capsLocked (s : State) (i : Nat) (vs : List Word) :
    (s.storeCells i vs).capsLocked = s.capsLocked := rfl

@[simp] theorem State.storeCells_phase (s : State) (i : Nat) (vs : List Word) :
    (s.storeCells i vs).phase = s.phase := rfl

@[simp] theorem State.storeCells_fault (s : State) (i : Nat) (vs : List Word) :
    (s.storeCells i vs).fault = s.fault := rfl

@[simp] theorem State.storeCells_crtc (s : State) (i : Nat) (vs : List Word) :
    (s.storeCells i vs).crtc = s.crtc := rfl

@[simp] theorem State.storeCells_params (s : State) (i : Nat) (vs : List Word) :
    (s.storeCells i vs).params = s.params := rfl

@[simp] theorem State.storeCells_inputs (s : State) (i : Nat) (vs : List Word) :
    (s.storeCells i vs).inputs = s.inputs := rfl

@[simp] theorem State.storeCells_draws (s : State) (i : Nat) (vs : List Word) :
    (s.storeCells i vs).draws = s.draws := rfl

@[simp] theorem State.storeCells_trace (s : State) (i : Nat) (vs : List Word) :
    (s.storeCells i vs).trace = s.trace := rfl

/-! ## writeCells -/

@[simp] theorem State.writeCells_cursorCol (s : State) (i : Nat) (vs : List Word) :
    (s.writeCells i vs).cursorCol = s.cursorCol := rfl

@[simp] theorem State.writeCells_cursorRow (s : State) (i : Nat) (vs : List Word) :
    (s.writeCells i vs).cursorRow = s.cursorRow := rfl

@[simp] theorem State.writeCells_attr (s : State) (i : Nat) (vs : List Word) :
    (s.writeCells i vs).attr = s.attr := rfl

@[simp] theorem State.writeCells_initDone (s : State) (i : Nat) (vs : List Word) :
    (s.writeCells i vs).initDone = s.initDone := rfl

@[simp] theorem State.writeCells_mem (s : State) (i : Nat) (vs : List Word) :
    (s.writeCells i vs).mem = s.mem.writeRun (cellAddr s.params i) (cellsToBytes vs) := rfl

@[simp] theorem State.writeCells_shiftHeld (s : State) (i : Nat) (vs : List Word) :
    (s.writeCells i vs).shiftHeld = s.shiftHeld := rfl

@[simp] theorem State.writeCells_capsLocked (s : State) (i : Nat) (vs : List Word) :
    (s.writeCells i vs).capsLocked = s.capsLocked := rfl

@[simp] theorem State.writeCells_phase (s : State) (i : Nat) (vs : List Word) :
    (s.writeCells i vs).phase = s.phase := rfl

@[simp] theorem State.writeCells_fault (s : State) (i : Nat) (vs : List Word) :
    (s.writeCells i vs).fault = s.fault := rfl

@[simp] theorem State.writeCells_crtc (s : State) (i : Nat) (vs : List Word) :
    (s.writeCells i vs).crtc = s.crtc := rfl

@[simp] theorem State.writeCells_params (s : State) (i : Nat) (vs : List Word) :
    (s.writeCells i vs).params = s.params := rfl

@[simp] theorem State.writeCells_inputs (s : State) (i : Nat) (vs : List Word) :
    (s.writeCells i vs).inputs = s.inputs := rfl

@[simp] theorem State.writeCells_draws (s : State) (i : Nat) (vs : List Word) :
    (s.writeCells i vs).draws = s.draws := rfl

@[simp] theorem State.writeCells_trace (s : State) (i : Nat) (vs : List Word) :
    (s.writeCells i vs).trace = s.trace ++ memWriteEvents (cellAddr s.params i) vs := rfl

/-! ## ioRead -/

@[simp] theorem State.ioRead_cursorCol (s : State) (port : Port) (v : Byte) :
    (s.ioRead port v).cursorCol = s.cursorCol := rfl

@[simp] theorem State.ioRead_cursorRow (s : State) (port : Port) (v : Byte) :
    (s.ioRead port v).cursorRow = s.cursorRow := rfl

@[simp] theorem State.ioRead_attr (s : State) (port : Port) (v : Byte) :
    (s.ioRead port v).attr = s.attr := rfl

@[simp] theorem State.ioRead_initDone (s : State) (port : Port) (v : Byte) :
    (s.ioRead port v).initDone = s.initDone := rfl

@[simp] theorem State.ioRead_mem (s : State) (port : Port) (v : Byte) :
    (s.ioRead port v).mem = s.mem := rfl

@[simp] theorem State.ioRead_shiftHeld (s : State) (port : Port) (v : Byte) :
    (s.ioRead port v).shiftHeld = s.shiftHeld := rfl

@[simp] theorem State.ioRead_capsLocked (s : State) (port : Port) (v : Byte) :
    (s.ioRead port v).capsLocked = s.capsLocked := rfl

@[simp] theorem State.ioRead_phase (s : State) (port : Port) (v : Byte) :
    (s.ioRead port v).phase = s.phase := rfl

@[simp] theorem State.ioRead_fault (s : State) (port : Port) (v : Byte) :
    (s.ioRead port v).fault = s.fault := rfl

@[simp] theorem State.ioRead_crtc (s : State) (port : Port) (v : Byte) :
    (s.ioRead port v).crtc = s.crtc := rfl

@[simp] theorem State.ioRead_params (s : State) (port : Port) (v : Byte) :
    (s.ioRead port v).params = s.params := rfl

@[simp] theorem State.ioRead_inputs (s : State) (port : Port) (v : Byte) :
    (s.ioRead port v).inputs = s.inputs := rfl

@[simp] theorem State.ioRead_draws (s : State) (port : Port) (v : Byte) :
    (s.ioRead port v).draws = s.draws := rfl

@[simp] theorem State.ioRead_trace (s : State) (port : Port) (v : Byte) :
    (s.ioRead port v).trace = s.trace ++ [.portIn port v] := rfl

/-! ## kbdRead -/

@[simp] theorem State.kbdRead_cursorCol (s : State) (sc : Byte) :
    (s.kbdRead sc).cursorCol = s.cursorCol := rfl

@[simp] theorem State.kbdRead_cursorRow (s : State) (sc : Byte) :
    (s.kbdRead sc).cursorRow = s.cursorRow := rfl

@[simp] theorem State.kbdRead_attr (s : State) (sc : Byte) :
    (s.kbdRead sc).attr = s.attr := rfl

@[simp] theorem State.kbdRead_initDone (s : State) (sc : Byte) :
    (s.kbdRead sc).initDone = s.initDone := rfl

@[simp] theorem State.kbdRead_mem (s : State) (sc : Byte) :
    (s.kbdRead sc).mem = s.mem := rfl

@[simp] theorem State.kbdRead_shiftHeld (s : State) (sc : Byte) :
    (s.kbdRead sc).shiftHeld = s.shiftHeld := rfl

@[simp] theorem State.kbdRead_capsLocked (s : State) (sc : Byte) :
    (s.kbdRead sc).capsLocked = s.capsLocked := rfl

@[simp] theorem State.kbdRead_phase (s : State) (sc : Byte) :
    (s.kbdRead sc).phase = .poll := rfl

@[simp] theorem State.kbdRead_fault (s : State) (sc : Byte) :
    (s.kbdRead sc).fault = s.fault := rfl

@[simp] theorem State.kbdRead_crtc (s : State) (sc : Byte) :
    (s.kbdRead sc).crtc = s.crtc := rfl

@[simp] theorem State.kbdRead_params (s : State) (sc : Byte) :
    (s.kbdRead sc).params = s.params := rfl

@[simp] theorem State.kbdRead_inputs (s : State) (sc : Byte) :
    (s.kbdRead sc).inputs = s.inputs := rfl

@[simp] theorem State.kbdRead_draws (s : State) (sc : Byte) :
    (s.kbdRead sc).draws = s.draws := rfl

@[simp] theorem State.kbdRead_trace (s : State) (sc : Byte) :
    (s.kbdRead sc).trace = s.trace ++ [.portIn s.params.kbdDataPort sc] := rfl

/-! ## scroll -/

@[simp] theorem State.scroll_cursorCol (s : State) :
    (s.scroll).cursorCol = s.cursorCol := rfl

@[simp] theorem State.scroll_cursorRow (s : State) :
    (s.scroll).cursorRow = s.cursorRow := rfl

@[simp] theorem State.scroll_attr (s : State) :
    (s.scroll).attr = s.attr := rfl

@[simp] theorem State.scroll_initDone (s : State) :
    (s.scroll).initDone = s.initDone := rfl

@[simp] theorem State.scroll_shiftHeld (s : State) :
    (s.scroll).shiftHeld = s.shiftHeld := rfl

@[simp] theorem State.scroll_capsLocked (s : State) :
    (s.scroll).capsLocked = s.capsLocked := rfl

@[simp] theorem State.scroll_phase (s : State) :
    (s.scroll).phase = s.phase := rfl

@[simp] theorem State.scroll_fault (s : State) :
    (s.scroll).fault = s.fault := rfl

@[simp] theorem State.scroll_crtc (s : State) :
    (s.scroll).crtc = s.crtc := rfl

@[simp] theorem State.scroll_params (s : State) :
    (s.scroll).params = s.params := rfl

@[simp] theorem State.scroll_inputs (s : State) :
    (s.scroll).inputs = s.inputs := rfl

@[simp] theorem State.scroll_draws (s : State) :
    (s.scroll).draws = s.draws := rfl

/-! ## withLatches -/

@[simp] theorem State.withLatches_cursorCol (s : State) (b c : Bool) (ph : Phase) :
    (s.withLatches b c ph).cursorCol = s.cursorCol := rfl

@[simp] theorem State.withLatches_cursorRow (s : State) (b c : Bool) (ph : Phase) :
    (s.withLatches b c ph).cursorRow = s.cursorRow := rfl

@[simp] theorem State.withLatches_attr (s : State) (b c : Bool) (ph : Phase) :
    (s.withLatches b c ph).attr = s.attr := rfl

@[simp] theorem State.withLatches_initDone (s : State) (b c : Bool) (ph : Phase) :
    (s.withLatches b c ph).initDone = s.initDone := rfl

@[simp] theorem State.withLatches_mem (s : State) (b c : Bool) (ph : Phase) :
    (s.withLatches b c ph).mem = s.mem := rfl

@[simp] theorem State.withLatches_shiftHeld (s : State) (b c : Bool) (ph : Phase) :
    (s.withLatches b c ph).shiftHeld = b := rfl

@[simp] theorem State.withLatches_capsLocked (s : State) (b c : Bool) (ph : Phase) :
    (s.withLatches b c ph).capsLocked = c := rfl

@[simp] theorem State.withLatches_phase (s : State) (b c : Bool) (ph : Phase) :
    (s.withLatches b c ph).phase = ph := rfl

@[simp] theorem State.withLatches_fault (s : State) (b c : Bool) (ph : Phase) :
    (s.withLatches b c ph).fault = s.fault := rfl

@[simp] theorem State.withLatches_crtc (s : State) (b c : Bool) (ph : Phase) :
    (s.withLatches b c ph).crtc = s.crtc := rfl

@[simp] theorem State.withLatches_params (s : State) (b c : Bool) (ph : Phase) :
    (s.withLatches b c ph).params = s.params := rfl

@[simp] theorem State.withLatches_inputs (s : State) (b c : Bool) (ph : Phase) :
    (s.withLatches b c ph).inputs = s.inputs := rfl

@[simp] theorem State.withLatches_draws (s : State) (b c : Bool) (ph : Phase) :
    (s.withLatches b c ph).draws = s.draws := rfl

@[simp] theorem State.withLatches_trace (s : State) (b c : Bool) (ph : Phase) :
    (s.withLatches b c ph).trace = s.trace := rfl

/-! ## scroll: memory and events (R104) -/

theorem State.scroll_mem (s : State) :
    s.scroll.mem = s.mem.writeRun (cellAddr s.params 0)
      (cellsToBytes (s.cells WIDTH (CELLS - WIDTH) ++ List.replicate WIDTH (blank s.attr))) := rfl

theorem State.scroll_trace (s : State) :
    s.scroll.trace = s.trace ++ (scrollEvents (cellAddr s.params 0) (s.cells WIDTH (CELLS - WIDTH))
      ++ memWriteEvents (cellAddr s.params (CELLS - WIDTH)) (List.replicate WIDTH (blank s.attr))) := rfl

/-! ## kbdPoll -/

@[simp] theorem State.kbdPoll_cursorCol (s : State) (v : Byte) :
    (s.kbdPoll v).cursorCol = s.cursorCol := by
  unfold State.kbdPoll; dsimp only; split <;> rfl

@[simp] theorem State.kbdPoll_cursorRow (s : State) (v : Byte) :
    (s.kbdPoll v).cursorRow = s.cursorRow := by
  unfold State.kbdPoll; dsimp only; split <;> rfl

@[simp] theorem State.kbdPoll_attr (s : State) (v : Byte) :
    (s.kbdPoll v).attr = s.attr := by
  unfold State.kbdPoll; dsimp only; split <;> rfl

@[simp] theorem State.kbdPoll_initDone (s : State) (v : Byte) :
    (s.kbdPoll v).initDone = s.initDone := by
  unfold State.kbdPoll; dsimp only; split <;> rfl

@[simp] theorem State.kbdPoll_mem (s : State) (v : Byte) :
    (s.kbdPoll v).mem = s.mem := by
  unfold State.kbdPoll; dsimp only; split <;> rfl

@[simp] theorem State.kbdPoll_shiftHeld (s : State) (v : Byte) :
    (s.kbdPoll v).shiftHeld = s.shiftHeld := by
  unfold State.kbdPoll; dsimp only; split <;> rfl

@[simp] theorem State.kbdPoll_capsLocked (s : State) (v : Byte) :
    (s.kbdPoll v).capsLocked = s.capsLocked := by
  unfold State.kbdPoll; dsimp only; split <;> rfl

@[simp] theorem State.kbdPoll_phase (s : State) (v : Byte) :
    (s.kbdPoll v).phase = if statusReady s.params v then .read else s.phase := by
  unfold State.kbdPoll; dsimp only; split <;> rfl

@[simp] theorem State.kbdPoll_fault (s : State) (v : Byte) :
    (s.kbdPoll v).fault = s.fault := by
  unfold State.kbdPoll; dsimp only; split <;> rfl

@[simp] theorem State.kbdPoll_crtc (s : State) (v : Byte) :
    (s.kbdPoll v).crtc = s.crtc := by
  unfold State.kbdPoll; dsimp only; split <;> rfl

@[simp] theorem State.kbdPoll_params (s : State) (v : Byte) :
    (s.kbdPoll v).params = s.params := by
  unfold State.kbdPoll; dsimp only; split <;> rfl

@[simp] theorem State.kbdPoll_inputs (s : State) (v : Byte) :
    (s.kbdPoll v).inputs = s.inputs := by
  unfold State.kbdPoll; dsimp only; split <;> rfl

@[simp] theorem State.kbdPoll_draws (s : State) (v : Byte) :
    (s.kbdPoll v).draws = s.draws := by
  unfold State.kbdPoll; dsimp only; split <;> rfl

@[simp] theorem State.kbdPoll_trace (s : State) (v : Byte) :
    (s.kbdPoll v).trace = s.trace ++ [.portIn s.params.kbdStatusPort v] := by
  unfold State.kbdPoll; dsimp only; split <;> rfl

/-! ## lineAdvance: the fields it never touches (R105) -/

@[simp] theorem State.lineAdvance_cursorCol (s : State) : s.lineAdvance.cursorCol = s.cursorCol := by
  unfold State.lineAdvance; split <;> rfl

@[simp] theorem State.lineAdvance_attr (s : State) : s.lineAdvance.attr = s.attr := by
  unfold State.lineAdvance; split <;> rfl

@[simp] theorem State.lineAdvance_initDone (s : State) : s.lineAdvance.initDone = s.initDone := by
  unfold State.lineAdvance; split <;> rfl

@[simp] theorem State.lineAdvance_shiftHeld (s : State) : s.lineAdvance.shiftHeld = s.shiftHeld := by
  unfold State.lineAdvance; split <;> rfl

@[simp] theorem State.lineAdvance_capsLocked (s : State) : s.lineAdvance.capsLocked = s.capsLocked := by
  unfold State.lineAdvance; split <;> rfl

@[simp] theorem State.lineAdvance_phase (s : State) : s.lineAdvance.phase = s.phase := by
  unfold State.lineAdvance; split <;> rfl

@[simp] theorem State.lineAdvance_fault (s : State) : s.lineAdvance.fault = s.fault := by
  unfold State.lineAdvance; split <;> rfl

@[simp] theorem State.lineAdvance_crtc (s : State) : s.lineAdvance.crtc = s.crtc := by
  unfold State.lineAdvance; split <;> rfl

@[simp] theorem State.lineAdvance_params (s : State) : s.lineAdvance.params = s.params := by
  unfold State.lineAdvance; split <;> rfl

@[simp] theorem State.lineAdvance_inputs (s : State) : s.lineAdvance.inputs = s.inputs := by
  unfold State.lineAdvance; split <;> rfl

@[simp] theorem State.lineAdvance_draws (s : State) : s.lineAdvance.draws = s.draws := by
  unfold State.lineAdvance; split <;> rfl

end Sys2Proof.Machine
end

