-- ==== Sys2Proof/Laws/Memory.lean ====
section
/-! SUPPORT. Laws of byte memory: what a read sees after a write, the canonical form, and equal reads. -/

namespace Sys2Proof.Machine

/-! ## Reads -/

@[simp] theorem Memory.read_nil (a : Nat) : Memory.read [] a = Memory.unwritten := rfl

theorem Memory.read_cons (b : Nat) (v : Byte) (m : Memory) (a : Nat) :
    Memory.read ((b, v) :: m) a = if b = a then v else Memory.read m a := rfl

/-- An address that no entry has reads as an unwritten byte. -/
theorem Memory.read_absent {m : Memory} {a : Nat} (h : ∀ x ∈ m, x.1 ≠ a) :
    m.read a = Memory.unwritten := by
  induction m with
  | nil => rfl
  | cons x t ih =>
    rw [Memory.read_cons, if_neg (h x (by simp)), ih fun y hy => h y (by simp [hy])]

/-- Where the first part has no entry at an address, the second part is read. -/
theorem Memory.read_append_right {m n : Memory} {a : Nat} (h : ∀ x ∈ m, x.1 ≠ a) :
    Memory.read (m ++ n) a = n.read a := by
  induction m with
  | nil => rfl
  | cons x t ih =>
    rw [List.cons_append, Memory.read_cons, if_neg (h x (by simp)), ih fun y hy => h y (by simp [hy])]

/-- Where the second part has no entry at an address, the first part is read. -/
theorem Memory.read_append_left {m n : Memory} {a : Nat} (h : ∀ x ∈ n, x.1 ≠ a) :
    Memory.read (m ++ n) a = m.read a := by
  induction m with
  | nil => simpa using Memory.read_absent h
  | cons x t ih => rw [List.cons_append, Memory.read_cons, Memory.read_cons, ih]

/-- A filter that keeps every entry at an address keeps what it reads. -/
theorem Memory.read_filter {m : Memory} {a : Nat} (q : Host.Cell → Bool) (h : ∀ v, q (a, v) = true) :
    Memory.read (m.filter q) a = m.read a := by
  induction m with
  | nil => rfl
  | cons x t ih =>
    obtain ⟨b, v⟩ := x
    by_cases hb : b = a
    · subst hb; simp [h, Memory.read_cons]
    · by_cases hq : q (b, v) = true
      · simp [hq, Memory.read_cons, hb, ih]
      · simp [hq, Memory.read_cons, hb, ih]

/-! ## Consecutive bytes listed -/

/-- Every address listed lies in the run. -/
theorem Memory.listed_range {vs : List Byte} {a : Nat} {x : Host.Cell} (h : x ∈ Memory.listed a vs) :
    a ≤ x.1 ∧ x.1 < a + vs.length := by
  induction vs generalizing a with
  | nil => simp [Memory.listed] at h
  | cons v vs ih =>
    rw [Memory.listed] at h
    split at h
    · have := ih h; simp only [List.length_cons]; omega
    · rcases List.mem_cons.1 h with rfl | h
      · simp
      · have := ih h; simp only [List.length_cons]; omega

/-- A listed run reads as its bytes. -/
theorem Memory.read_listed (vs : List Byte) (a k : Nat) (h : k < vs.length) :
    (Memory.listed a vs).read (a + k) = vs[k] := by
  induction vs generalizing a k with
  | nil => simp at h
  | cons v vs ih =>
    have tail : ∀ j, j < vs.length → (Memory.listed (a + 1) vs).read (a + (j + 1)) = vs[j]! := by
      intro j hj
      rw [show a + (j + 1) = a + 1 + j by omega, ih (a + 1) j hj, getElem!_pos vs j hj]
    have below : (Memory.listed (a + 1) vs).read a = Memory.unwritten :=
      Memory.read_absent fun x hx => by have := Memory.listed_range hx; omega
    rw [Memory.listed]
    cases k with
    | zero =>
      split
      · next hv => simpa [hv] using below
      · simp [Memory.read_cons]
    | succ j =>
      have hj : j < vs.length := by simpa using h
      have e := tail j hj
      rw [getElem!_pos vs j hj] at e
      split
      · simpa using e
      · rw [Memory.read_cons, if_neg (by omega)]; simpa using e

/-! ## The write -/

/-- A byte inside a written run reads as written. -/
theorem Memory.read_writeRun_inside (m : Memory) (a k : Nat) (vs : List Byte) (h : k < vs.length) :
    (m.writeRun a vs).read (a + k) = vs[k] := by
  unfold Memory.writeRun
  rw [Memory.read_append_left, Memory.read_append_right, Memory.read_listed vs a k h]
  · intro x hx; have := (List.mem_filter.1 hx).2; simp at this; omega
  · intro x hx; have := (List.mem_filter.1 hx).2; simp at this; omega

/-- A byte outside a written run reads as before. -/
theorem Memory.read_writeRun_outside (m : Memory) (a x : Nat) (vs : List Byte)
    (h : x < a ∨ a + vs.length ≤ x) : (m.writeRun a vs).read x = m.read x := by
  unfold Memory.writeRun
  rcases h with h | h
  · rw [Memory.read_append_left, Memory.read_append_left, Memory.read_filter]
    · intro v; simpa using h
    · intro y hy; have := Memory.listed_range hy; omega
    · intro y hy; have := (List.mem_filter.1 hy).2; simp at this; omega
  · rw [List.append_assoc, Memory.read_append_right, Memory.read_append_right, Memory.read_filter]
    · intro v; simpa using h
    · intro y hy; have := Memory.listed_range hy; omega
    · intro y hy; have := (List.mem_filter.1 hy).2; simp at this; omega

/-- What a read sees after a write, everywhere. -/
theorem Memory.read_writeRun (m : Memory) (a x : Nat) (vs : List Byte) :
    (m.writeRun a vs).read x =
      if h : a ≤ x ∧ x < a + vs.length then vs[x - a]'(by omega) else m.read x := by
  split
  · next h =>
    have := Memory.read_writeRun_inside m a (x - a) vs (by omega)
    rwa [show a + (x - a) = x by omega] at this
  · exact Memory.read_writeRun_outside m a x vs (by omega)

/-! ## The canonical form -/

theorem Memory.wf_nil : Memory.wf [] := by simp [Memory.wf]

/-- The entries of a run are in canonical form. -/
theorem Memory.listed_wf (a : Nat) (vs : List Byte) : (Memory.listed a vs).wf := by
  induction vs generalizing a with
  | nil => exact Memory.wf_nil
  | cons v vs ih =>
    have ⟨h1, h2⟩ := ih (a + 1)
    rw [Memory.listed]
    split
    · exact ih (a + 1)
    · next hv =>
      refine ⟨List.pairwise_cons.2 ⟨fun y hy => ?_, h1⟩, ?_⟩
      · have := Memory.listed_range hy; omega
      · intro x hx
        rcases List.mem_cons.1 hx with rfl | hx
        · exact hv
        · exact h2 x hx

/-- Every write keeps the canonical form. -/
theorem Memory.writeRun_wf {m : Memory} (h : m.wf) (a : Nat) (vs : List Byte) : (m.writeRun a vs).wf := by
  obtain ⟨hp, hn⟩ := h
  obtain ⟨lp, ln⟩ := Memory.listed_wf a vs
  unfold Memory.writeRun
  refine ⟨?_, ?_⟩
  · rw [List.append_assoc, List.pairwise_append, List.pairwise_append]
    refine ⟨hp.filter _, ⟨lp, hp.filter _, ?_⟩, ?_⟩
    · intro x hx y hy
      have := Memory.listed_range hx
      have := (List.mem_filter.1 hy).2
      simp at this; omega
    · intro x hx y hy
      have hx' := (List.mem_filter.1 hx).2
      simp at hx'
      rcases List.mem_append.1 hy with hy | hy
      · have := Memory.listed_range hy; omega
      · have := (List.mem_filter.1 hy).2; simp at this; omega
  · intro x hx
    rcases List.mem_append.1 hx with hx | hx
    · rcases List.mem_append.1 hx with hx | hx
      · exact hn x (List.mem_filter.1 hx).1
      · exact ln x hx
    · exact hn x (List.mem_filter.1 hx).1

/-- Every address listed after a write was listed before or lies in the run. -/
theorem Memory.mem_writeRun {m : Memory} {a : Nat} {vs : List Byte} {x : Host.Cell}
    (h : x ∈ m.writeRun a vs) : x ∈ m ∨ (a ≤ x.1 ∧ x.1 < a + vs.length) := by
  unfold Memory.writeRun at h
  rcases List.mem_append.1 h with h | h
  · rcases List.mem_append.1 h with h | h
    · exact .inl (List.mem_filter.1 h).1
    · exact .inr (Memory.listed_range h)
  · exact .inl (List.mem_filter.1 h).1

/-- A listed entry of a canonical memory is what its address reads as. -/
theorem Memory.read_mem {m : Memory} (h : m.wf) {a : Nat} {v : Byte} (hx : (a, v) ∈ m) : m.read a = v := by
  induction m with
  | nil => simp at hx
  | cons x t ih =>
    obtain ⟨b, w⟩ := x
    obtain ⟨hp, hn⟩ := h
    have hp' := List.pairwise_cons.1 hp
    rcases List.mem_cons.1 hx with e | hx
    · injection e with e1 e2; subst e1; subst e2; simp [Memory.read_cons]
    · have : b < a := hp'.1 _ hx
      rw [Memory.read_cons, if_neg (by omega)]
      exact ih ⟨hp'.2, fun y hy => hn y (by simp [hy])⟩ hx

/-- Canonical memories that read alike everywhere are equal. -/
theorem Memory.wf_ext {m n : Memory} (hm : m.wf) (hn : n.wf) (h : ∀ a, m.read a = n.read a) : m = n := by
  have sub : ∀ {p q : Memory}, p.wf → q.wf → (∀ a, p.read a = q.read a) → ∀ x ∈ p, x ∈ q := by
    intro p q hp hq hr x hx
    obtain ⟨a, v⟩ := x
    have e : q.read a = v := (hr a).symm.trans (Memory.read_mem hp hx)
    by_contra hno
    have : q.read a = Memory.unwritten := by
      apply Memory.read_absent
      intro y hy hya
      obtain ⟨b, w⟩ := y
      simp only at hya; subst hya
      exact hno (by rw [← e, Memory.read_mem hq hy]; exact hy)
    exact hp.2 _ hx (by rw [← e, this])
  have hperm : List.Perm m n := by
    apply (List.perm_ext_iff_of_nodup ?_ ?_).2
    · intro x; exact ⟨sub hm hn h x, sub hn hm (fun a => (h a).symm) x⟩
    · exact hm.1.imp fun hxy e => by subst e; omega
    · exact hn.1.imp fun hxy e => by subst e; omega
  exact hperm.eq_of_pairwise (fun a b _ _ h1 h2 => absurd h1 (by omega)) hm.1 hn.1

/-! ## Consecutive reads -/

@[simp] theorem Memory.readFrom_length (n a : Nat) (m : Memory) : (Memory.readFrom n a m).length = n := by
  induction n generalizing a m with
  | zero => rfl
  | succ n ih =>
    cases m with
    | nil => simp [Memory.readFrom, ih]
    | cons x t => obtain ⟨b, v⟩ := x; rw [Memory.readFrom]; split <;> simp [ih]

/-- Consecutive reads of a canonical memory that lists nothing below their first address. -/
theorem Memory.readFrom_eq (n a : Nat) {m : Memory} (h : m.wf) (hb : ∀ x ∈ m, a ≤ x.1) :
    Memory.readFrom n a m = (List.range n).map (fun k => m.read (a + k)) := by
  induction n generalizing a m with
  | zero => rfl
  | succ n ih =>
    rw [List.range_succ_eq_map, List.map_cons, List.map_map]
    cases m with
    | nil =>
      rw [Memory.readFrom, ih (a + 1) h (by simp)]
      simp only [Memory.read_nil, List.cons.injEq, true_and]
      exact List.map_congr_left fun k _ => rfl
    | cons x t =>
      obtain ⟨b, v⟩ := x
      obtain ⟨hp, hn⟩ := h
      have hp' := List.pairwise_cons.1 hp
      have ht : Memory.wf t := ⟨hp'.2, fun y hy => hn y (by simp [hy])⟩
      have hba : a ≤ b := hb (b, v) (by simp)
      rw [Memory.readFrom]
      split
      · next e =>
        subst e
        rw [ih (b + 1) ht (fun y hy => hp'.1 y hy)]
        simp only [Nat.add_zero, Memory.read_cons, if_true, List.cons.injEq, true_and]
        apply List.map_congr_left
        intro k _
        simp only [Function.comp, Nat.succ_eq_add_one]
        rw [if_neg (by omega), show b + 1 + k = b + (k + 1) by omega]
      · next e =>
        rw [ih (a + 1) ⟨hp, hn⟩ (fun y hy => by
          rcases List.mem_cons.1 hy with rfl | hy
          · simp only; omega
          · have := hp'.1 y hy; simp only at this; omega)]
        have : Memory.read ((b, v) :: t) a = Memory.unwritten := Memory.read_absent fun y hy => by
          rcases List.mem_cons.1 hy with rfl | hy
          · exact e
          · have := hp'.1 y hy; simp only at this; omega
        simp only [Nat.add_zero, this, List.cons.injEq, true_and]
        apply List.map_congr_left
        intro k _
        simp only [Function.comp, Nat.succ_eq_add_one]
        rw [show a + 1 + k = a + (k + 1) by omega]

/-- In a canonical memory a run of reads is the read of each address. -/
theorem Memory.readRun_eq {m : Memory} (h : m.wf) (a n : Nat) :
    m.readRun a n = (List.range n).map (fun k => m.read (a + k)) := by
  unfold Memory.readRun
  rw [Memory.readFrom_eq]
  · apply List.map_congr_left
    intro k _
    exact Memory.read_filter _ (by intro v; simp)
  · exact ⟨h.1.filter _, fun x hx => h.2 x (List.mem_filter.1 hx).1⟩
  · intro x hx; simpa using (List.mem_filter.1 hx).2

end Sys2Proof.Machine
end

