-- ==== Sys2Proof/Laws/Cells.lean ====
section
/-! SUPPORT. Laws of cells: their bytes, what `fb[i]` is after a store, and the event lists of runs of
stores. -/

namespace Sys2Proof.Machine

/-! ## Cells and bytes -/

@[simp] theorem cellChar_cellval (c a : Byte) : cellChar (cellval c a) = c := by
  unfold cellChar cellval; exact BitVec.extractLsb'_append_eq_right

@[simp] theorem cellAttr_cellval (c a : Byte) : cellAttr (cellval c a) = a := by
  unfold cellAttr cellval; exact BitVec.extractLsb'_append_eq_left

@[simp] theorem cellval_bytes (v : Word) : cellval (cellChar v) (cellAttr v) = v := by
  unfold cellval cellChar cellAttr
  ext i hi
  simp only [BitVec.getElem_append, BitVec.getElem_extractLsb']
  split
  · simp [BitVec.getLsbD_eq_getElem hi]
  · rw [show 8 + (i - 8) = i by omega, BitVec.getLsbD_eq_getElem hi]

@[simp] theorem cellsToBytes_length (vs : List Word) : (cellsToBytes vs).length = 2 * vs.length := by
  induction vs with
  | nil => rfl
  | cons v vs ih => simp only [cellsToBytes, List.length_cons, ih]; omega

theorem cellsToBytes_getElem_char (vs : List Word) (k : Nat) (h : k < vs.length) :
    (cellsToBytes vs)[2 * k]'(by rw [cellsToBytes_length]; omega) = cellChar vs[k] := by
  induction vs generalizing k with
  | nil => simp at h
  | cons v vs ih =>
    cases k with
    | zero => rfl
    | succ k => simpa [cellsToBytes, Nat.mul_add] using ih k (by simpa using h)

theorem cellsToBytes_getElem_attr (vs : List Word) (k : Nat) (h : k < vs.length) :
    (cellsToBytes vs)[2 * k + 1]'(by rw [cellsToBytes_length]; omega) = cellAttr vs[k] := by
  induction vs generalizing k with
  | nil => simp at h
  | cons v vs ih =>
    cases k with
    | zero => rfl
    | succ k => simpa [cellsToBytes, Nat.mul_add] using ih k (by simpa using h)

theorem cellsToBytes_append (us vs : List Word) :
    cellsToBytes (us ++ vs) = cellsToBytes us ++ cellsToBytes vs := by
  induction us with
  | nil => rfl
  | cons u us ih => simp [cellsToBytes, ih]

/-- Consecutive bytes read as cells. -/
theorem bytesToCells_map (f : Nat → Byte) (n : Nat) :
    bytesToCells ((List.range (2 * n)).map f) =
      (List.range n).map (fun k => cellval (f (2 * k)) (f (2 * k + 1))) := by
  induction n generalizing f with
  | zero => rfl
  | succ n ih =>
    rw [show 2 * (n + 1) = 2 * n + 1 + 1 by omega, List.range_succ_eq_map, List.range_succ_eq_map,
      List.range_succ_eq_map]
    simp only [List.map_cons, List.map_map, bytesToCells]
    have := ih (fun k => f (k + 2))
    simp only [Function.comp_def, Nat.succ_eq_add_one] at this ⊢
    simp only [show ∀ k, k + 1 + 1 = k + 2 from fun k => rfl, this, Nat.mul_zero, Nat.zero_add]
    congr 1

/-! ## fb after a store -/

/-- A stored cell is what was stored. -/
theorem State.storeCells_cell_inside (s : State) (i k : Nat) (vs : List Word) (h : k < vs.length) :
    (s.storeCells i vs).cell (i + k) = vs[k] := by
  have hc := Memory.read_writeRun_inside s.mem (cellAddr s.params i) (2 * k) (cellsToBytes vs)
    (by rw [cellsToBytes_length]; omega)
  have ha := Memory.read_writeRun_inside s.mem (cellAddr s.params i) (2 * k + 1) (cellsToBytes vs)
    (by rw [cellsToBytes_length]; omega)
  rw [cellsToBytes_getElem_char vs k h] at hc
  rw [cellsToBytes_getElem_attr vs k h] at ha
  unfold State.cell
  simp only [State.storeCells_params, State.storeCells_mem]
  rw [show cellAddr s.params (i + k) = cellAddr s.params i + 2 * k by unfold cellAddr; omega, hc,
    Nat.add_assoc, ha, cellval_bytes]

/-- A cell that was not stored is unchanged. -/
theorem State.storeCells_cell_outside (s : State) (i j : Nat) (vs : List Word)
    (h : j < i ∨ i + vs.length ≤ j) : (s.storeCells i vs).cell j = s.cell j := by
  unfold State.cell
  simp only [State.storeCells_params, State.storeCells_mem]
  rw [Memory.read_writeRun_outside, Memory.read_writeRun_outside] <;>
    (rw [cellsToBytes_length]; unfold cellAddr; omega)

/-- A byte outside the stored cells is unchanged. -/
theorem State.storeCells_read_outside (s : State) (i x : Nat) (vs : List Word)
    (h : x < cellAddr s.params i ∨ cellAddr s.params i + 2 * vs.length ≤ x) :
    (s.storeCells i vs).mem.read x = s.mem.read x := by
  rw [State.storeCells_mem, Memory.read_writeRun_outside]
  rw [cellsToBytes_length]; exact h

/-- `fb[i]` depends on memory and the parameters only. -/
theorem State.cell_congr {s t : State} (hm : t.mem = s.mem) (hp : t.params = s.params) (i : Nat) :
    t.cell i = s.cell i := by unfold State.cell; rw [hm, hp]

/-- In a canonical memory, consecutive cells are `fb[i]`, `fb[i+1]`, …. -/
theorem State.cells_eq (s : State) (h : s.mem.wf) (i n : Nat) :
    s.cells i n = (List.range n).map (fun k => s.cell (i + k)) := by
  unfold State.cells
  rw [Memory.readRun_eq h, bytesToCells_map]
  apply List.map_congr_left
  intro k _
  unfold State.cell
  rw [show cellAddr s.params (i + k) = cellAddr s.params i + 2 * k by unfold cellAddr; omega,
    Nat.add_assoc]

theorem bytesToCells_length (n : Nat) (bs : List Byte) (h : bs.length = 2 * n) :
    (bytesToCells bs).length = n := by
  induction n generalizing bs with
  | zero =>
    have : bs = [] := List.length_eq_zero_iff.1 (by simpa using h)
    subst this; rfl
  | succ n ih =>
    match bs, h with
    | [], h => simp at h
    | [_], h => simp at h; omega
    | c :: a :: rest, h =>
      rw [bytesToCells, List.length_cons, ih rest (by simp at h; omega)]

/-- The number of cells read, in any memory. -/
@[simp] theorem State.cells_length (s : State) (i n : Nat) : (s.cells i n).length = n :=
  bytesToCells_length n _ (by simp [Memory.readRun])

/-! ## Event lists -/

theorem memWriteEvents_map (f : Nat → Word) (a n : Nat) :
    memWriteEvents a ((List.range n).map f) =
      (List.range n).map (fun k => .memWrite (a + 2 * k) (f k)) := by
  induction n generalizing a f with
  | zero => rfl
  | succ n ih =>
    rw [List.range_succ_eq_map]
    simp only [List.map_cons, List.map_map, memWriteEvents, Nat.mul_zero, Nat.add_zero,
      List.cons.injEq, true_and]
    have := ih (fun k => f (k + 1)) (a + 2)
    simp only [Function.comp_def, Nat.succ_eq_add_one] at this ⊢
    rw [this]
    apply List.map_congr_left
    intro k _
    rw [show a + 2 + 2 * k = a + 2 * (k + 1) by omega]

theorem memWriteEvents_replicate (a n : Nat) (v : Word) :
    memWriteEvents a (List.replicate n v) = (List.range n).map (fun k => .memWrite (a + 2 * k) v) := by
  rw [← memWriteEvents_map (fun _ => v)]
  congr 1
  simp

@[simp] theorem memWriteEvents_length (a : Nat) (vs : List Word) :
    (memWriteEvents a vs).length = vs.length := by
  induction vs generalizing a with
  | nil => rfl
  | cons v vs ih => simp [memWriteEvents, ih]

theorem scrollEvents_map (f : Nat → Word) (a n : Nat) :
    scrollEvents a ((List.range n).map f) =
      (List.range n).flatMap
        (fun k => [.memRead (a + 2 * WIDTH + 2 * k) (f k), .memWrite (a + 2 * k) (f k)]) := by
  induction n generalizing a f with
  | zero => rfl
  | succ n ih =>
    rw [List.range_succ_eq_map]
    simp only [List.map_cons, List.map_map, scrollEvents, List.flatMap_cons, List.flatMap_map,
      Nat.mul_zero, Nat.add_zero, List.cons_append, List.nil_append, List.cons.injEq, true_and]
    have := ih (fun k => f (k + 1)) (a + 2)
    simp only [Function.comp_def, Nat.succ_eq_add_one] at this ⊢
    rw [this]
    congr 1
    funext k
    rw [show a + 2 + 2 * k = a + 2 * (k + 1) by omega,
      show a + 2 + 2 * WIDTH + 2 * k = a + 2 * WIDTH + 2 * (k + 1) by omega]

@[simp] theorem scrollEvents_length (a : Nat) (vs : List Word) :
    (scrollEvents a vs).length = 2 * vs.length := by
  induction vs generalizing a with
  | nil => rfl
  | cons v vs ih => simp only [scrollEvents, List.length_cons, ih]; omega

end Sys2Proof.Machine
end

