-- ==== Sys2Proof/Laws/Ops.lean ====
section
/-! SUPPORT. What each shared operation can do, said once: ending a step, port writes, CURSOR_SYNC,
CELL_WRITE, SCROLL, LINE_ADVANCE, the frame of PUTC, and the next step's input. -/

namespace Sys2Proof.Machine

/-! ## Ending a step -/

@[simp] theorem finish_ok (b s : State) : finish b (.ok s) = .next s := rfl

@[simp] theorem finish_raised (b : State) (c : Cause) :
    finish b (.error (.raised c)) = .next (b.raise c) := rfl

@[simp] theorem finish_stopped (b : State) (why : Fault) :
    finish b (.error (.stopped why)) = .fault why := rfl

@[simp] theorem finish_refused (b : State) (why : Refusal) :
    finish b (.error (.refused why)) = .refused why := rfl

/-- A next state is either the computation's own or the start state with a fault raised. -/
theorem finish_next {b t : State} {r : Except Stop State} (h : finish b r = .next t) :
    r = .ok t ∨ ∃ c, r = .error (.raised c) ∧ t = b.raise c := by
  cases r with
  | ok s => simp at h; exact .inl (by rw [h])
  | error e =>
    cases e with
    | raised c => simp at h; exact .inr ⟨c, rfl, h.symm⟩
    | stopped why => simp at h
    | refused why => simp at h

/-! ## Configurations -/

/-- The check holds exactly of the configurations the spec covers. -/
theorem params_wf_iff {p : Params} : p.wf = true ↔ p.inSpec := by unfold Params.wf; exact decide_eq_true_iff

/-! ## CURSOR_SYNC (R103) -/

@[simp] theorem syncedCrtc_location (p : Params) (off : Word) : (syncedCrtc p off).location = off := by
  unfold Crtc.location syncedCrtc
  exact cellval_bytes off

@[simp] theorem syncedCrtc_index (p : Params) (off : Word) : (syncedCrtc p off).index = p.curHiIndex := rfl

@[simp] theorem syncEvents_length (p : Params) (off : Word) : (syncEvents p off).length = 4 := rfl

/-- In a configuration the spec covers, CURSOR_SYNC writes the CRTC and its four events, nothing else. -/
theorem State.cursorSync_eq (s : State) (h : s.params.wf = true) :
    s.cursorSync =
      .ok ((s.setCrtc (syncedCrtc s.params s.offset)).emit (syncEvents s.params s.offset)) := by
  obtain ⟨-, h1, -, -, -, -, -, h2, -⟩ := params_wf_iff.1 h
  have h1' := Ne.symm h1
  have h2' := Ne.symm h2
  simp [State.cursorSync, State.ioWrite, crtcWrite, h1', h2', State.emit, State.setCrtc, syncedCrtc, syncEvents, bind,
    Except.bind]

/-- Whatever the configuration, a port write that ends well changes the CRTC and the event list only. -/
theorem State.ioWrite_ok {s t : State} {port : Port} {v : Byte} (h : s.ioWrite port v = .ok t) :
    ∃ c, crtcWrite s.params s.crtc port v = .ok c ∧ t = (s.setCrtc c).emit [.portOut port v] := by
  unfold State.ioWrite at h
  split at h
  · next c hc => exact ⟨c, hc, by simpa using h.symm⟩
  · simp at h

/-- Whatever the configuration, a CURSOR_SYNC that ends well changes the CRTC and appends its four events. -/
theorem State.cursorSync_ok {s t : State} (h : s.cursorSync = .ok t) :
    ∃ c, t = (s.setCrtc c).emit (syncEvents s.params s.offset) := by
  simp only [State.cursorSync, bind, Except.bind] at h
  split at h
  · simp at h
  · next s1 h1 =>
    split at h
    · simp at h
    · next s2 h2 =>
      split at h
      · simp at h
      · next s3 h3 =>
        obtain ⟨c1, -, rfl⟩ := State.ioWrite_ok h1
        obtain ⟨c2, -, rfl⟩ := State.ioWrite_ok h2
        obtain ⟨c3, -, rfl⟩ := State.ioWrite_ok h3
        obtain ⟨c4, -, rfl⟩ := State.ioWrite_ok h
        refine ⟨c4, ?_⟩
        simp only [State.emit, State.setCrtc, syncEvents, List.append_assoc, List.cons_append,
          List.nil_append]

/-! ## CELL_WRITE (R102) -/

theorem State.cellWrite_ok (s : State) {col row : Nat} (v : Word) (hc : col < WIDTH) (hr : row < HEIGHT) :
    s.cellWrite col row v = .ok (s.writeCells (cellIndex col row) [v]) := by
  unfold State.cellWrite; rw [if_pos ⟨hc, hr⟩]

theorem State.cellWrite_outside (s : State) {col row : Nat} (v : Word)
    (h : ¬(col < WIDTH ∧ row < HEIGHT)) :
    s.cellWrite col row v = .error (.stopped (.cellOutsideFramebuffer col row)) := by
  unfold State.cellWrite; rw [if_neg h]

/-- A CELL_WRITE that ends well is one store inside the framebuffer. -/
theorem State.cellWrite_eq_ok {s t : State} {col row : Nat} {v : Word} (h : s.cellWrite col row v = .ok t) :
    (col < WIDTH ∧ row < HEIGHT) ∧ t = s.writeCells (cellIndex col row) [v] := by
  unfold State.cellWrite at h
  split at h
  · next hr => injection h with h; exact ⟨hr, h.symm⟩
  · simp at h

/-- A cell index formed from a cursor in range lies in the framebuffer (R117). -/
theorem cellIndex_lt {col row : Nat} (hc : col < WIDTH) (hr : row < HEIGHT) : cellIndex col row < CELLS := by
  simp only [cellIndex, WIDTH, HEIGHT, CELLS] at *; omega

theorem State.writeCells_cell_inside (s : State) (i k : Nat) (vs : List Word) (h : k < vs.length) :
    (s.writeCells i vs).cell (i + k) = vs[k] :=
  (State.cell_congr rfl rfl _).trans (s.storeCells_cell_inside i k vs h)

theorem State.writeCells_cell_self (s : State) (i : Nat) (v : Word) : (s.writeCells i [v]).cell i = v :=
  s.writeCells_cell_inside i 0 [v] (by simp)

theorem State.writeCells_cell_outside (s : State) (i j : Nat) (vs : List Word)
    (h : j < i ∨ i + vs.length ≤ j) : (s.writeCells i vs).cell j = s.cell j :=
  (State.cell_congr rfl rfl _).trans (s.storeCells_cell_outside i j vs h)

theorem State.writeCells_read_outside (s : State) (i x : Nat) (vs : List Word)
    (h : x < cellAddr s.params i ∨ cellAddr s.params i + 2 * vs.length ≤ x) :
    (s.writeCells i vs).mem.read x = s.mem.read x :=
  s.storeCells_read_outside i x vs h

theorem State.writeCells_wf (s : State) (h : s.mem.wf) (i : Nat) (vs : List Word) :
    (s.writeCells i vs).mem.wf := Memory.writeRun_wf h _ _

/-- Storing inside the framebuffer keeps memory inside the window. -/
theorem State.writeCells_memInWindow (s : State) (h : s.memInWindow) (i : Nat) (vs : List Word)
    (hi : i + vs.length ≤ CELLS) : (s.writeCells i vs).memInWindow := by
  intro x hx
  rcases Memory.mem_writeRun hx with hx | hx
  · exact h x hx
  · rw [cellsToBytes_length] at hx
    simp only [cellAddr, State.writeCells_params] at *
    omega

/-! ## SCROLL (R104) -/

/-- The cells that SCROLL stores, in a canonical memory. -/
theorem State.scroll_stored (s : State) (h : s.mem.wf) (k : Nat) (hk : k < CELLS) :
    s.scroll.cell k = if k < CELLS - WIDTH then s.cell (k + WIDTH) else blank s.attr := by
  have e : s.scroll.cell k = (s.cells WIDTH (CELLS - WIDTH) ++ List.replicate WIDTH (blank s.attr))[k]'(by
      simp only [List.length_append, State.cells_length, List.length_replicate, CELLS, WIDTH] at *; omega) := by
    have := s.storeCells_cell_inside 0 k (s.cells WIDTH (CELLS - WIDTH) ++ List.replicate WIDTH (blank s.attr)) (by
      simp only [List.length_append, State.cells_length, List.length_replicate, CELLS, WIDTH] at *; omega)
    rw [Nat.zero_add] at this
    rw [← this]
    exact State.cell_congr rfl rfl _
  rw [e, List.getElem_append]
  simp only [State.cells_length]
  split
  · simp only [State.cells_eq s h, List.getElem_map, List.getElem_range]
    rw [Nat.add_comm]
  · rw [List.getElem_replicate]

/-- SCROLL moves every row up and blanks the last (the result R104 states). -/
theorem State.scroll_scrolledFrom (s : State) (h : s.mem.wf) : scrolledFrom s.cell s.attr s.scroll := by
  refine ⟨fun y x hy hx => ?_, fun x hx => ?_⟩
  · rw [s.scroll_stored h _ (by simp only [CELLS]; omega), if_pos (by simp only [CELLS, WIDTH]; omega)]
    congr 1; simp only [WIDTH]; omega
  · rw [s.scroll_stored h _ (by simp only [CELLS]; omega), if_neg (by simp only [CELLS, WIDTH]; omega)]

theorem State.scroll_sameBytesOutside (s : State) :
    sameBytesOutside s.params.fbBase (2 * CELLS) s s.scroll := by
  intro x hx
  have := s.storeCells_read_outside 0 x (s.cells WIDTH (CELLS - WIDTH) ++ List.replicate WIDTH (blank s.attr))
  simp only [List.length_append, State.cells_length, List.length_replicate, cellAddr, CELLS, WIDTH] at *
  exact this (by omega)

/-- The events SCROLL appends are those of its pseudocode. -/
theorem State.scroll_trace_eq (s : State) (h : s.mem.wf) :
    s.scroll.trace = s.trace ++ scrollTrace s.params s.cell s.attr := by
  have moved : ∀ n, (List.range n).flatMap (fun k => [Event.memRead (cellAddr s.params 0 + 2 * WIDTH + 2 * k)
        (s.cell (WIDTH + k)), Event.memWrite (cellAddr s.params 0 + 2 * k) (s.cell (WIDTH + k))])
      = (List.range n).flatMap (fun i => [Event.memRead (s.params.fbBase + 2 * (i + 80)) (s.cell (i + 80)),
        Event.memWrite (s.params.fbBase + 2 * i) (s.cell (i + 80))]) := by
    intro n
    congr 1
    funext k
    simp only [WIDTH, cellAddr]
    rw [show 80 + k = k + 80 by omega, show s.params.fbBase + 2 * 0 + 2 * 80 + 2 * k
      = s.params.fbBase + 2 * (k + 80) by omega,
      show s.params.fbBase + 2 * 0 + 2 * k = s.params.fbBase + 2 * k by omega]
  have blanked : ∀ n, (List.range n).map (fun k => Event.memWrite (cellAddr s.params (CELLS - WIDTH) + 2 * k)
        (blank s.attr))
      = (List.range n).map (fun x => Event.memWrite (s.params.fbBase + 2 * (1920 + x)) (blank s.attr)) := by
    intro n
    apply List.map_congr_left
    intro k _
    simp only [CELLS, WIDTH, cellAddr]
    rw [show s.params.fbBase + 2 * (2000 - 80) + 2 * k = s.params.fbBase + 2 * (1920 + k) by omega]
  rw [State.scroll_trace, State.cells_eq s h, scrollEvents_map, memWriteEvents_replicate, moved, blanked]
  rfl

theorem State.scroll_wf (s : State) (h : s.mem.wf) : s.scroll.mem.wf := Memory.writeRun_wf h _ _

theorem State.scroll_memInWindow (s : State) (h : s.memInWindow) : s.scroll.memInWindow := by
  intro x hx
  rcases Memory.mem_writeRun hx with hx | hx
  · exact h x hx
  · rw [cellsToBytes_length] at hx
    simp only [List.length_append, State.cells_length, List.length_replicate, cellAddr, CELLS, WIDTH,
      State.scroll_params] at *
    omega

/-! ## LINE_ADVANCE (R105) -/

theorem State.lineAdvance_of_ne (s : State) (h : s.cursorRow.toNat + 1 ≠ HEIGHT) :
    s.lineAdvance = s.setRow (BitVec.ofNat 5 (s.cursorRow.toNat + 1)) := by
  unfold State.lineAdvance; rw [if_neg h]

theorem State.lineAdvance_of_last (s : State) (h : s.cursorRow.toNat + 1 = HEIGHT) :
    s.lineAdvance = s.scroll.setRow (BitVec.ofNat 5 (HEIGHT - 1)) := by
  unfold State.lineAdvance; rw [if_pos h]

/-- LINE_ADVANCE leaves the row in range. -/
theorem State.lineAdvance_row_lt (s : State) (h : s.cursorRow.toNat < HEIGHT) :
    s.lineAdvance.cursorRow.toNat < HEIGHT := by
  by_cases hr : s.cursorRow.toNat + 1 = HEIGHT
  · rw [s.lineAdvance_of_last hr]; simp [HEIGHT]
  · rw [s.lineAdvance_of_ne hr]
    simp only [HEIGHT, State.setRow_cursorRow, BitVec.toNat_ofNat] at *; omega

theorem State.lineAdvance_wf (s : State) (h : s.mem.wf) : s.lineAdvance.mem.wf := by
  unfold State.lineAdvance; split
  · exact s.scroll_wf h
  · exact h

theorem State.lineAdvance_memInWindow (s : State) (h : s.memInWindow) : s.lineAdvance.memInWindow := by
  unfold State.lineAdvance; split
  · exact s.scroll_memInWindow h
  · exact h

/-! ## The frame of PUTC (R106) -/

theorem State.putc_uninitialised (s : State) (c : Byte) (body : State → Except Stop State)
    (h : s.initDone = false) : s.putc c body = .error (.raised (.notInitialized c)) := by
  unfold State.putc; simp [h]

theorem State.putc_initialised (s : State) (c : Byte) (body : State → Except Stop State)
    (h : s.initDone = true) : s.putc c body = body s >>= State.cursorSync := by
  unfold State.putc; simp [h]

/-- A PUTC form whose body ends well ends with the body's state synced. -/
theorem State.putc_eq (s t : State) (c : Byte) (body : State → Except Stop State) (h : s.initDone = true)
    (hb : body s = .ok t) (hp : t.params.wf = true) :
    s.putc c body =
      .ok ((t.setCrtc (syncedCrtc t.params t.offset)).emit (syncEvents t.params t.offset)) := by
  rw [s.putc_initialised c body h, hb]
  exact t.cursorSync_eq hp

/-! ## The step -/

/-- What a step of a running block is: its next input, taken. -/
theorem step_running {s : State} (h : s.running) :
    step s = match s.takeInput with
      | (.command w, t) => hostStep w t
      | (.keyboard v, t) => keyboardStep v t := by
  unfold step; rw [h.1]; exact if_pos h.2

/-- Only a running block has a next state. -/
theorem running_of_step {s t : State} (h : step s = .next t) : s.running := by
  unfold step at h
  split at h
  · simp at h
  · next hf =>
    split at h
    · next hp => exact ⟨hf, hp⟩
    · simp at h

/-- A step of a running block: a host step or a keyboard step on the state whose input is taken, which
differs from the start state in `inputs` and `draws` only. -/
theorem step_next {s t : State} (h : step s = .next t) :
    ∃ x u, s.takeInput = (x, u) ∧ u = { s with inputs := u.inputs, draws := u.draws }
      ∧ ((∃ w, x = .command w ∧ hostStep w u = .next t) ∨ (∃ v, x = .keyboard v ∧ keyboardStep v u = .next t)) := by
  rw [step_running (running_of_step h)] at h
  have hu : s.takeInput.2 = { s with inputs := s.takeInput.2.inputs, draws := s.takeInput.2.draws } := by
    unfold State.takeInput; split <;> rfl
  revert h hu
  generalize s.takeInput = p
  obtain ⟨x, u⟩ := p
  intro h hu
  refine ⟨x, u, rfl, hu, ?_⟩
  cases x with
  | command w => exact .inl ⟨w, rfl, h⟩
  | keyboard v => exact .inr ⟨v, rfl, h⟩

/-! ## The next step's input -/

theorem State.takeInput_cons (s : State) {x : Input} {rest : List Input} (h : s.inputs = x :: rest) :
    s.takeInput = (x, { s with inputs := rest }) := by
  unfold State.takeInput; rw [h]

theorem State.takeInput_nil (s : State) (h : s.inputs = []) :
    s.takeInput = (Config.environmentInput s.draws, { s with draws := s.draws + 1 }) := by
  unfold State.takeInput; rw [h]

end Sys2Proof.Machine
end

