-- ==== Sys2Proof/Laws/Display.lean ====
section
/-! SUPPORT. What the body of each PUTC form does, case by case, and what INIT's CURSOR_SYNC sees. -/

namespace Sys2Proof.Machine

/-! ## The cursor's offset -/

theorem State.offset_eq {s : State} {c r : Nat} (hc : s.cursorCol.toNat = c) (hr : s.cursorRow.toNat = r) :
    s.offset = offsetOf c r := by
  unfold State.offset offsetOf cellIndex WIDTH; rw [hc, hr]

/-! ## PUTC.NL -/

theorem newlineBody_down (s : State) (h : s.cursorRow.toNat < 24) :
    newlineBody s = .ok ((s.setCol 0).setRow (BitVec.ofNat 5 (s.cursorRow.toNat + 1))) := by
  unfold newlineBody
  rw [State.lineAdvance_of_ne _ (by simp only [HEIGHT, State.setCol_cursorRow]; omega)]
  rfl

theorem newlineBody_scroll (s : State) (h : s.cursorRow.toNat = 24) :
    newlineBody s = .ok ((s.setCol 0).scroll.setRow 24) := by
  unfold newlineBody
  rw [State.lineAdvance_of_last _ (by simp only [HEIGHT, State.setCol_cursorRow]; omega)]
  rfl

/-! ## PUTC.TAB -/

/-- The tab stop is the least multiple of 4 above the column (R110). -/
theorem tabStop_toNat : ∀ col : BitVec 7, (tabStop col).toNat = 4 * (col.toNat / 4 + 1) := by decide

theorem tabBody_inside (s : State) (h : s.cursorCol.toNat < 76) :
    tabBody s = .ok (s.setCol (BitVec.ofNat 7 (4 * (s.cursorCol.toNat / 4 + 1)))) := by
  have e : (tabStop s.cursorCol).setWidth 7 = BitVec.ofNat 7 (4 * (s.cursorCol.toNat / 4 + 1)) := by
    apply BitVec.eq_of_toNat_eq
    rw [BitVec.toNat_setWidth, tabStop_toNat, BitVec.toNat_ofNat]
  unfold tabBody
  rw [if_neg (by rw [tabStop_toNat]; simp only [WIDTH]; omega), e]

theorem tabBody_overflow (s : State) (h : 76 ≤ s.cursorCol.toNat) : tabBody s = newlineBody s := by
  unfold tabBody newlineBody
  rw [if_pos (by rw [tabStop_toNat]; simp only [WIDTH]; omega)]

/-! ## PUTC.BS -/

theorem backspaceBody_origin (s : State) (hc : s.cursorCol = 0) (hr : s.cursorRow = 0) :
    backspaceBody s = .ok s := by
  unfold backspaceBody; rw [if_pos ⟨hr, hc⟩]

theorem backspaceBody_left (s : State) (h0 : 0 < s.cursorCol.toNat) (hc : s.cursorCol.toNat < 80)
    (hr : s.cursorRow.toNat < 25) :
    backspaceBody s = .ok ((s.setCol (BitVec.ofNat 7 (s.cursorCol.toNat - 1))).writeCells
      (cellIndex (s.cursorCol.toNat - 1) s.cursorRow.toNat) [blank s.attr]) := by
  have n0 : s.cursorCol ≠ 0 := by intro e; rw [e] at h0; simp at h0
  have e : s.cursorCol - 1 = BitVec.ofNat 7 (s.cursorCol.toNat - 1) := by bv_omega
  have e' : (BitVec.ofNat 7 (s.cursorCol.toNat - 1)).toNat = s.cursorCol.toNat - 1 := by
    rw [BitVec.toNat_ofNat]; omega
  unfold backspaceBody
  rw [if_neg (fun h => n0 h.2), if_pos n0]
  simp only [e, e', State.setCol_cursorCol, State.setCol_cursorRow]
  exact State.cellWrite_ok _ _ (by simp only [WIDTH]; omega) (by simpa only [HEIGHT] using hr)

theorem backspaceBody_previous (s : State) (hc : s.cursorCol = 0) (h0 : 0 < s.cursorRow.toNat)
    (hr : s.cursorRow.toNat < 25) :
    backspaceBody s = .ok (((s.setRow (BitVec.ofNat 5 (s.cursorRow.toNat - 1))).setCol 79).writeCells
      (cellIndex 79 (s.cursorRow.toNat - 1)) [blank s.attr]) := by
  have n0 : s.cursorRow ≠ 0 := by intro e; rw [e] at h0; simp at h0
  have e : s.cursorRow - 1 = BitVec.ofNat 5 (s.cursorRow.toNat - 1) := by bv_omega
  have e' : (BitVec.ofNat 5 (s.cursorRow.toNat - 1)).toNat = s.cursorRow.toNat - 1 := by
    rw [BitVec.toNat_ofNat]; omega
  unfold backspaceBody
  rw [if_neg (fun h => n0 h.1), if_neg (fun h => h hc)]
  simp only [e, e', State.setCol_cursorRow, State.setRow_cursorRow]
  exact State.cellWrite_ok _ _ (by simp only [WIDTH]; omega) (by simp only [HEIGHT]; omega)

/-! ## PUTC.PLAIN -/

theorem plainBody_inside (s : State) (c : Byte) (hc : s.cursorCol.toNat < 79) (hr : s.cursorRow.toNat < 25) :
    plainBody c s = .ok ((s.writeCells (cellIndex s.cursorCol.toNat s.cursorRow.toNat) [cellval c s.attr]).setCol
      (BitVec.ofNat 7 (s.cursorCol.toNat + 1))) := by
  unfold plainBody
  rw [State.cellWrite_ok _ _ (by simp only [WIDTH]; omega) (by simpa only [HEIGHT] using hr)]
  exact if_neg (by simp only [WIDTH, State.writeCells_cursorCol]; omega)

theorem plainBody_wrap (s : State) (c : Byte) (hc : s.cursorCol.toNat = 79) (hr : s.cursorRow.toNat < 25) :
    plainBody c s =
      newlineBody (s.writeCells (cellIndex 79 s.cursorRow.toNat) [cellval c s.attr]) := by
  unfold plainBody
  rw [State.cellWrite_ok _ _ (by simp only [WIDTH]; omega) (by simpa only [HEIGHT] using hr)]
  rw [hc]
  exact if_pos (by simp only [WIDTH, State.writeCells_cursorCol]; omega)

/-- Off the framebuffer there is no cell to write. -/
theorem plainBody_outside (s : State) (c : Byte) (h : ¬s.cursorInRange) :
    plainBody c s = .error (.stopped (.cellOutsideFramebuffer s.cursorCol.toNat s.cursorRow.toNat)) := by
  unfold plainBody
  rw [State.cellWrite_outside _ _ h]
  rfl

/-! ## The body a character selects -/

/-- The PUTC form a character selects runs the body that character selects (R72, R106). -/
theorem exec_putcForm (c : Byte) (s : State) : exec (putcForm c) s = finish s (s.putc c (putcBody c)) := by
  unfold putcForm
  split
  · next h => subst h; rfl
  · next h1 =>
    split
    · next h => subst h; rfl
    · next h2 =>
      split
      · next h => subst h; rfl
      · next h3 =>
        have : putcBody c = plainBody c := by
          funext u; simp only [putcBody, if_neg h1, if_neg h2, if_neg h3]
        simp only [exec, execPutcPlain, this]

/-! ## Everything a PUTC body can do -/

/-- Everything a PUTC body that ends well can do: store at most one cell of the framebuffer, scroll at most
once, and place the cursor, in range if it was. -/
def State.putcShape (s t : State) : Prop :=
  ∃ (u : State) (x : BitVec 7) (y : BitVec 5),
    (u = s ∨ ∃ i v, i < CELLS ∧ u = s.writeCells i [v])
    ∧ (t = (u.setCol x).setRow y ∨ t = (u.scroll.setCol x).setRow y)
    ∧ (s.cursorInRange → x.toNat < WIDTH ∧ y.toNat < HEIGHT)

theorem newlineBody_shape {s t : State} (h : newlineBody s = .ok t) :
    ∃ y : BitVec 5, (t = (s.setCol 0).setRow y ∨ t = (s.scroll.setCol 0).setRow y)
      ∧ (s.cursorRow.toNat < HEIGHT → y.toNat < HEIGHT) := by
  have e : t = (s.setCol 0).lineAdvance := by simpa [newlineBody] using h.symm
  subst e
  by_cases hr : s.cursorRow.toNat + 1 = HEIGHT
  · exact ⟨24, .inr (State.lineAdvance_of_last (s.setCol 0) hr), fun _ => by decide⟩
  · refine ⟨BitVec.ofNat 5 (s.cursorRow.toNat + 1), .inl (State.lineAdvance_of_ne (s.setCol 0) hr), fun h => ?_⟩
    simp only [HEIGHT, BitVec.toNat_ofNat] at *; omega

theorem State.putcShape_of_newline {s u t : State} (hu : u = s ∨ ∃ i v, i < CELLS ∧ u = s.writeCells i [v])
    (h : newlineBody u = .ok t) : s.putcShape t := by
  obtain ⟨y, ht, hy⟩ := newlineBody_shape h
  have hrow : u.cursorRow = s.cursorRow := by
    rcases hu with rfl | ⟨i, v, -, rfl⟩ <;> rfl
  rw [hrow] at hy
  exact ⟨u, 0, y, hu, ht, fun hr => ⟨by simp [WIDTH], hy hr.2⟩⟩

theorem backspaceBody_shape {s t : State} (h : backspaceBody s = .ok t) : s.putcShape t := by
  unfold backspaceBody at h
  split at h
  · injection h with h; subst h
    exact ⟨s, s.cursorCol, s.cursorRow, .inl rfl, .inl rfl, fun hr => hr⟩
  · split at h
    · obtain ⟨hr, e⟩ := State.cellWrite_eq_ok h
      exact ⟨_, s.cursorCol - 1, s.cursorRow, .inr ⟨_, blank s.attr, cellIndex_lt hr.1 hr.2, rfl⟩,
        .inl e, fun _ => hr⟩
    · obtain ⟨hr, e⟩ := State.cellWrite_eq_ok h
      exact ⟨_, BitVec.ofNat 7 (WIDTH - 1), s.cursorRow - 1,
        .inr ⟨_, blank s.attr, cellIndex_lt hr.1 hr.2, rfl⟩, .inl e, fun _ => ⟨by decide, hr.2⟩⟩

theorem plainBody_shape {s t : State} {c : Byte} (h : plainBody c s = .ok t) : s.putcShape t := by
  by_cases hr : s.cursorInRange
  · have hc : s.cursorCol.toNat < 80 := hr.1
    have hr' : s.cursorRow.toNat < 25 := hr.2
    by_cases h0 : s.cursorCol.toNat < 79
    · rw [plainBody_inside s c h0 hr'] at h
      injection h with h; subst h
      refine ⟨_, BitVec.ofNat 7 (s.cursorCol.toNat + 1), s.cursorRow, .inr ⟨_, cellval c s.attr, cellIndex_lt hr.1 hr.2, rfl⟩, .inl rfl,
        fun _ => ⟨?_, hr.2⟩⟩
      simp only [WIDTH, BitVec.toNat_ofNat]; omega
    · rw [plainBody_wrap s c (by omega) hr'] at h
      exact State.putcShape_of_newline
        (.inr ⟨_, _, cellIndex_lt (by decide) hr.2, rfl⟩) h
  · rw [plainBody_outside s c hr] at h; simp at h

theorem tabBody_shape {s t : State} (h : tabBody s = .ok t) : s.putcShape t := by
  by_cases h0 : s.cursorCol.toNat < 76
  · rw [tabBody_inside s h0] at h
    injection h with h; subst h
    refine ⟨s, BitVec.ofNat 7 (4 * (s.cursorCol.toNat / 4 + 1)), s.cursorRow, .inl rfl, .inl rfl,
      fun hr => ⟨?_, hr.2⟩⟩
    simp only [WIDTH, BitVec.toNat_ofNat]; omega
  · rw [tabBody_overflow s (by omega)] at h
    exact State.putcShape_of_newline (.inl rfl) h

/-- The body any character selects, said once. -/
theorem putcBody_shape {c : Byte} {s t : State} (h : putcBody c s = .ok t) : s.putcShape t := by
  unfold putcBody at h
  split at h
  · exact State.putcShape_of_newline (.inl rfl) h
  · split at h
    · exact tabBody_shape h
    · split at h
      · exact backspaceBody_shape h
      · exact plainBody_shape h

/-- A PUTC that ends well, in a configuration the spec covers: its body's shape, then one CURSOR_SYNC. -/
theorem State.putc_ok {s t : State} {c : Byte} {body : State → Except Stop State}
    (hp : s.params.wf = true) (hb : ∀ u, body s = .ok u → s.putcShape u) (h : s.putc c body = .ok t) :
    s.initDone = true ∧ ∃ u, s.putcShape u ∧ body s = .ok u
      ∧ t = (u.setCrtc (syncedCrtc u.params u.offset)).emit (syncEvents u.params u.offset) := by
  unfold State.putc at h
  split at h
  · next hi =>
    refine ⟨hi, ?_⟩
    cases hr : body s with
    | error e => rw [hr] at h; exact absurd h (by simp [bind, Except.bind])
    | ok u =>
      have hs := hb u hr
      have hup : u.params = s.params := by
        obtain ⟨v, x, y, hv, ht, -⟩ := hs
        rcases ht with rfl | rfl <;> rcases hv with rfl | ⟨i, w, -, rfl⟩ <;> rfl
      rw [hr] at h
      change u.cursorSync = .ok t at h
      rw [u.cursorSync_eq (by rw [hup]; exact hp)] at h
      injection h with h
      exact ⟨u, hs, rfl, h.symm⟩
  · simp at h

/-- A PUTC that ends well, whatever the configuration: its body, then a CRTC change and four events. -/
theorem State.putc_ok_any {s t : State} {c : Byte} {body : State → Except Stop State}
    (h : s.putc c body = .ok t) :
    s.initDone = true ∧ ∃ u k, body s = .ok u ∧ t = (u.setCrtc k).emit (syncEvents u.params u.offset) := by
  unfold State.putc at h
  split at h
  · next hi =>
    refine ⟨hi, ?_⟩
    cases hr : body s with
    | error e => rw [hr] at h; exact absurd h (by simp [bind, Except.bind])
    | ok u =>
      rw [hr] at h
      obtain ⟨k, hk⟩ := State.cursorSync_ok (s := u) h
      exact ⟨u, k, rfl, hk⟩
  · simp at h

/-- A PUTC that raises did so because INIT has not run. -/
theorem State.putc_raised {s : State} {c : Byte} {body : State → Except Stop State} {e : Cause}
    (hb : ∀ e, body s ≠ .error (.raised e)) (h : s.putc c body = .error (.raised e)) :
    s.initDone = false ∧ e = .notInitialized c := by
  unfold State.putc at h
  split at h
  · exfalso
    have hw : ∀ (v : State) (port : Port) (x : Byte), v.ioWrite port x ≠ .error (.raised e) := by
      intro v port x hx; unfold State.ioWrite at hx; split at hx <;> simp at hx
    have hs : ∀ v : State, v.cursorSync ≠ .error (.raised e) := by
      intro v hv
      simp only [State.cursorSync, bind, Except.bind] at hv
      split at hv
      · next h1 => exact hw _ _ _ (by rw [h1]; exact hv)
      · split at hv
        · next h1 => exact hw _ _ _ (by rw [h1]; exact hv)
        · split at hv
          · next h1 => exact hw _ _ _ (by rw [h1]; exact hv)
          · exact hw _ _ _ hv
    cases hr : body s with
    | error f => rw [hr] at h; exact hb e (by rw [hr]; exact h)
    | ok u => rw [hr] at h; exact hs u h
  · next hi => exact ⟨by simpa using hi, by simpa using h.symm⟩

/-- No body raises a fault of its own. -/
theorem putcBody_not_raised (c : Byte) (s : State) (e : Cause) : putcBody c s ≠ .error (.raised e) := by
  have hw : ∀ (v : State) (col row : Nat) (x : Word), v.cellWrite col row x ≠ .error (.raised e) := by
    intro v col row x hx; unfold State.cellWrite at hx; split at hx <;> simp at hx
  intro h
  unfold putcBody at h
  split at h
  · simp [newlineBody] at h
  · split at h
    · unfold tabBody at h; split at h <;> simp at h
    · split at h
      · unfold backspaceBody at h
        split at h
        · simp at h
        · split at h
          · exact hw _ _ _ _ h
          · exact hw _ _ _ _ h
      · unfold plainBody at h
        cases hr : s.cellWrite s.cursorCol.toNat s.cursorRow.toNat (cellval c s.attr) with
        | error f => rw [hr] at h; exact hw s _ _ _ (by rw [hr]; exact h)
        | ok u => rw [hr] at h; simp only [bind, Except.bind] at h; split at h <;> simp at h

/-- What a PUTC body never touches. -/
theorem State.putcShape_frame {s t : State} (h : s.putcShape t) :
    t.attr = s.attr ∧ t.initDone = s.initDone ∧ t.shiftHeld = s.shiftHeld ∧ t.capsLocked = s.capsLocked
      ∧ t.phase = s.phase ∧ t.fault = s.fault ∧ t.crtc = s.crtc ∧ t.params = s.params
      ∧ t.inputs = s.inputs ∧ t.draws = s.draws := by
  obtain ⟨v, x, y, hv, ht, -⟩ := h
  rcases ht with rfl | rfl <;> rcases hv with rfl | ⟨i, w, -, rfl⟩ <;>
    exact ⟨rfl, rfl, rfl, rfl, rfl, rfl, rfl, rfl, rfl, rfl⟩

end Sys2Proof.Machine
end

