-- ==== Sys2Proof/Laws/Exec.lean ====
section
/-! SUPPORT. Everything an instruction that has a next state can do, said once per form, and what a step
of the machine can do. -/

namespace Sys2Proof.Machine

/-! ## PUTC forms -/

/-- A PUTC form with its character is a body of the known shape inside the frame of R106. -/
theorem exec_putc (i : Instr) (c : Byte) (s : State) (hc : i.putcChar = some c) :
    ∃ body : State → Except Stop State, exec i s = finish s (s.putc c body)
      ∧ (∀ u, body s = .ok u → s.putcShape u) ∧ ∀ e, body s ≠ .error (.raised e) := by
  cases i <;> simp only [Instr.putcChar, Option.some.injEq, reduceCtorEq] at hc <;> subst hc
  · exact ⟨newlineBody, rfl, fun u h => State.putcShape_of_newline (.inl rfl) h,
      fun e => putcBody_not_raised NL s e⟩
  · exact ⟨tabBody, rfl, fun u h => tabBody_shape h, fun e => putcBody_not_raised TAB s e⟩
  · exact ⟨backspaceBody, rfl, fun u h => backspaceBody_shape h, fun e => putcBody_not_raised BS s e⟩
  · next c =>
    refine ⟨plainBody c, rfl, fun u h => plainBody_shape h, fun e h => ?_⟩
    unfold plainBody at h
    cases hr : s.cellWrite s.cursorCol.toNat s.cursorRow.toNat (cellval c s.attr) with
    | error f =>
      rw [hr] at h
      unfold State.cellWrite at hr
      split at hr
      · simp at hr
      · injection hr with hr; subst hr; simp [bind, Except.bind] at h
    | ok u => rw [hr] at h; simp only [bind, Except.bind] at h; split at h <;> simp at h

/-- What a PUTC on `s`, inside a step that began in `before`, can lead to. -/
theorem putc_next {before s t : State} {c : Byte} {body : State → Except Stop State}
    (hs : ∀ u, body s = .ok u → s.putcShape u) (hr : ∀ e, body s ≠ .error (.raised e))
    (h : finish before (s.putc c body) = .next t) :
    (s.initDone = false ∧ t = before.raise (.notInitialized c))
    ∨ (s.initDone = true ∧ ∃ u k, s.putcShape u ∧ body s = .ok u
        ∧ t = (u.setCrtc k).emit (syncEvents u.params u.offset)
        ∧ (s.params.wf = true → k = syncedCrtc u.params u.offset)) := by
  rcases finish_next h with h | ⟨e, h, ht⟩
  · obtain ⟨hi, u, k, hb, rfl⟩ := State.putc_ok_any h
    refine .inr ⟨hi, u, k, hs u hb, hb, rfl, fun hp => ?_⟩
    obtain ⟨-, v, -, hv, e⟩ := State.putc_ok hp hs h
    rw [hb] at hv
    injection hv with hv; subst hv
    have := congrArg State.crtc e
    simpa using this
  · obtain ⟨hi, rfl⟩ := State.putc_raised hr h
    exact .inl ⟨hi, ht⟩

/-! ## Every instruction -/

/-- The state INIT syncs (R107). -/
def State.cleared (s : State) : State :=
  ((((s.setAttr s.params.defaultAttr).writeCells 0
    (List.replicate CELLS (blank s.params.defaultAttr))).setCol 0).setRow 0).setInitDone

/-- Everything an instruction with a next state can have done. -/
inductive ExecCase (s : State) : Instr → State → Prop where
  /-- A PUTC form before INIT. -/
  | putcRaised (i : Instr) (c : Byte) : i.putcChar = some c → s.initDone = false →
      ExecCase s i (s.raise (.notInitialized c))
  /-- A PUTC form after INIT. -/
  | putcDone (i : Instr) (c : Byte) (u : State) (k : Crtc) : i.putcChar = some c → s.initDone = true →
      s.putcShape u → (s.params.wf = true → k = syncedCrtc u.params u.offset) →
      ExecCase s i ((u.setCrtc k).emit (syncEvents u.params u.offset))
  | setcolor (fg bg : Colour) : ExecCase s (.setcolor fg bg) (s.setAttr (attrByte fg bg))
  | init (k : Crtc) : (s.params.wf = true → k = syncedCrtc s.params s.cleared.offset) →
      ExecCase s .init ((s.cleared.setCrtc k).emit (syncEvents s.params s.cleared.offset))
  | shiftMake (k : ShiftKey) : ExecCase s (.scShiftMake k) ((s.kbdRead (shiftMakeCode k)).setShift true)
  | shiftBreak (k : ShiftKey) : ExecCase s (.scShiftBreak k) ((s.kbdRead (shiftBreakCode k)).setShift false)
  | capsMake : ExecCase s .scCapsMake ((s.kbdRead CAPS_MAKE).setCaps (!s.capsLocked))
  | breakOther (key : Key) : ExecCase s (.scBreakOther key) (s.kbdRead (breakCode key))
  /-- A key with no mapping. -/
  | keyNone (key : Key) : decodeKey s.params key s.shifted = none →
      ExecCase s (.scKeyMake key) (s.kbdRead (makeCode key))
  /-- A mapped key before INIT. -/
  | keyRaised (key : Key) (c : Byte) : decodeKey s.params key s.shifted = some c → s.initDone = false →
      ExecCase s (.scKeyMake key) (s.raise (.notInitialized c))
  /-- A mapped key after INIT. -/
  | keyDone (key : Key) (c : Byte) (u : State) (k : Crtc) : decodeKey s.params key s.shifted = some c →
      s.initDone = true → (s.kbdRead (makeCode key)).putcShape u →
      (s.params.wf = true → k = syncedCrtc u.params u.offset) →
      ExecCase s (.scKeyMake key) ((u.setCrtc k).emit (syncEvents u.params u.offset))

theorem exec_putc_case {i : Instr} {c : Byte} {s t : State} (hc : i.putcChar = some c)
    (h : exec i s = .next t) : ExecCase s i t := by
  obtain ⟨body, hb, hs, hr⟩ := exec_putc i c s hc
  rw [hb] at h
  rcases putc_next hs hr h with ⟨hi, rfl⟩ | ⟨hi, u, k, hu, -, rfl, hk⟩
  · exact .putcRaised i c hc hi
  · exact .putcDone i c u k hc hi hu hk

/-- The inversion of `exec`: from a next state, which case it is. -/
theorem exec_case {i : Instr} {s t : State} (h : exec i s = .next t) : ExecCase s i t := by
  cases i with
  | putcNl => exact exec_putc_case rfl h
  | putcTab => exact exec_putc_case rfl h
  | putcBs => exact exec_putc_case rfl h
  | putcPlain c => exact exec_putc_case rfl h
  | setcolor fg bg =>
    simp only [exec, execSetcolor, finish_ok, Host.Outcome.next.injEq] at h
    subst h; exact .setcolor fg bg
  | init =>
    change finish s s.cleared.cursorSync = .next t at h
    rcases finish_next h with h | ⟨e, h, ht⟩
    · obtain ⟨k, e⟩ := State.cursorSync_ok h
      have hk : s.params.wf = true → k = syncedCrtc s.params s.cleared.offset := by
        intro hp
        rw [s.cleared.cursorSync_eq hp] at h
        injection h with h
        have := congrArg State.crtc (h.trans e)
        exact this.symm
      subst e
      exact .init k hk
    · exfalso
      have := State.putc_raised (s := s.cleared) (c := 0) (body := fun u => .ok u) (e := e)
        (by simp) (by
          rw [State.putc_initialised _ _ _ rfl]; exact h)
      simp [State.cleared] at this
  | scShiftMake k =>
    simp only [exec, execScShiftMake, finish_ok, Host.Outcome.next.injEq] at h
    subst h; exact .shiftMake k
  | scShiftBreak k =>
    simp only [exec, execScShiftBreak, finish_ok, Host.Outcome.next.injEq] at h
    subst h; exact .shiftBreak k
  | scCapsMake =>
    simp only [exec, execScCapsMake, finish_ok, Host.Outcome.next.injEq] at h
    subst h; exact .capsMake
  | scBreakOther key =>
    simp only [exec, execScBreakOther, finish_ok, Host.Outcome.next.injEq] at h
    subst h; exact .breakOther key
  | scKeyMake key =>
    simp only [exec, execScKeyMake] at h
    cases hd : decodeKey s.params key s.shifted with
    | none =>
      rw [hd] at h
      simp only [State.forward, finish_ok, Host.Outcome.next.injEq] at h
      subst h; exact .keyNone key hd
    | some c =>
      rw [hd] at h
      rcases putc_next (fun u hu => putcBody_shape hu) (fun e => putcBody_not_raised c _ e) h with
        ⟨hi, rfl⟩ | ⟨hi, u, k, hu, -, rfl, hk⟩
      · exact .keyRaised key c hd hi
      · exact .keyDone key c u k hd hi hu hk

/-! ## Every step -/

/-- Everything a step with a next state can have done: its input taken, and then a reserved word's fault,
an instruction, or a poll. -/
theorem step_case {s t : State} (h : step s = .next t) :
    s.running ∧ ∃ x u, s.takeInput = (x, u) ∧ u = { s with inputs := u.inputs, draws := u.draws }
      ∧ ((∃ w why, x = .command w ∧ decodeCommand w = .reserved why ∧ t = u.raise (.reservedCommand w))
        ∨ (∃ w i, x = .command w ∧ decodeCommand w = .instr i ∧ exec i u = .next t)
        ∨ (∃ v, x = .keyboard v ∧ s.phase = .poll ∧ t = u.kbdPoll v)
        ∨ (∃ v, x = .keyboard v ∧ s.phase = .read ∧ exec (decodeScancode v) u = .next t)) := by
  refine ⟨running_of_step h, ?_⟩
  obtain ⟨x, u, hx, hu, hw⟩ := step_next h
  refine ⟨x, u, hx, hu, ?_⟩
  have hph : u.phase = s.phase := by rw [hu]
  rcases hw with ⟨w, rfl, hw⟩ | ⟨v, rfl, hw⟩
  · unfold hostStep at hw
    split at hw
    · next i hd => exact .inr (.inl ⟨w, i, rfl, hd, hw⟩)
    · next why hd => exact .inl ⟨w, why, rfl, hd, by simpa using hw.symm⟩
  · unfold keyboardStep at hw
    split at hw
    · next hp => exact .inr (.inr (.inl ⟨v, rfl, by rw [← hph, hp], by simpa using hw.symm⟩))
    · next hp => exact .inr (.inr (.inr ⟨v, rfl, by rw [← hph, hp], hw⟩))

end Sys2Proof.Machine
end

