-- ==== Sys2Proof/Laws/Events.lean ====
section
/-! SUPPORT. Runs of stores joined, what runs of events do to what lies outside, and what a PUTC body does
to the invariant's parts. -/

namespace Sys2Proof.Machine

/-! ## Runs of stores -/

/-- Two runs of stores, one behind the other, are one run. -/
theorem Memory.writeRun_append {m : Memory} (h : m.wf) (a : Nat) (us vs : List Byte) :
    (m.writeRun a us).writeRun (a + us.length) vs = m.writeRun a (us ++ vs) := by
  apply Memory.wf_ext (Memory.writeRun_wf (Memory.writeRun_wf h _ _) _ _) (Memory.writeRun_wf h _ _)
  intro x
  have hl : (us ++ vs).length = us.length + vs.length := List.length_append
  by_cases h1 : x < a
  · rw [Memory.read_writeRun_outside _ _ _ _ (by omega), Memory.read_writeRun_outside _ _ _ _ (by omega),
      Memory.read_writeRun_outside _ _ _ _ (by omega)]
  by_cases h2 : x < a + us.length
  · rw [Memory.read_writeRun_outside _ _ _ _ (by omega)]
    obtain ⟨k, rfl⟩ : ∃ k, x = a + k := ⟨x - a, by omega⟩
    rw [Memory.read_writeRun_inside _ _ _ _ (by omega), Memory.read_writeRun_inside _ _ _ _ (by omega),
      List.getElem_append_left]
  by_cases h3 : x < a + us.length + vs.length
  · obtain ⟨k, rfl⟩ : ∃ k, x = a + us.length + k := ⟨x - a - us.length, by omega⟩
    rw [Memory.read_writeRun_inside _ _ _ _ (by omega), Nat.add_assoc,
      Memory.read_writeRun_inside _ _ _ _ (by omega), List.getElem_append_right (by omega)]
    congr 1; omega
  · rw [Memory.read_writeRun_outside _ _ _ _ (by omega), Memory.read_writeRun_outside _ _ _ _ (by omega),
      Memory.read_writeRun_outside _ _ _ _ (by omega)]

/-- A run of no stores changes nothing. -/
theorem Memory.writeRun_nil {m : Memory} (h : m.wf) (a : Nat) : m.writeRun a [] = m := by
  apply Memory.wf_ext (Memory.writeRun_wf h _ _) h
  intro x; rw [Memory.read_writeRun_outside _ _ _ _ (by simp; omega)]

/-! ## Events performed -/

theorem performAll_append (p : Params) (es fs : List Event) (o : Outside) :
    performAll p (es ++ fs) o = (performAll p es o).bind (performAll p fs) := by
  induction es generalizing o with
  | nil => rfl
  | cons e es ih => simp only [List.cons_append, performAll]; cases e.perform p o <;> simp [ih]

/-- The stores of consecutive cells, performed. -/
theorem performAll_memWriteEvents (p : Params) (vs : List Word) (a : Nat) (o : Outside) (h : o.mem.wf) :
    performAll p (memWriteEvents a vs) o = some { o with mem := o.mem.writeRun a (cellsToBytes vs) } := by
  induction vs generalizing a o with
  | nil => simp [memWriteEvents, performAll, cellsToBytes, Memory.writeRun_nil h]
  | cons v vs ih =>
    simp only [memWriteEvents, performAll, Event.perform]
    rw [ih _ _ (Memory.writeRun_wf h _ _)]
    simp only [Option.some.injEq, Outside.mk.injEq, and_true]
    exact Memory.writeRun_append h a (cellsToBytes [v]) (cellsToBytes vs)

/-- The copies of a scroll, performed, where each load finds its value in memory beforehand. -/
theorem performAll_scrollEvents (p : Params) (vs : List Word) (a : Nat) (o : Outside) (h : o.mem.wf)
    (hr : ∀ k (hk : k < vs.length),
      cellval (o.mem.read (a + 2 * WIDTH + 2 * k)) (o.mem.read (a + 2 * WIDTH + 2 * k + 1)) = vs[k]) :
    performAll p (scrollEvents a vs) o = some { o with mem := o.mem.writeRun a (cellsToBytes vs) } := by
  induction vs generalizing a o with
  | nil => simp [scrollEvents, performAll, cellsToBytes, Memory.writeRun_nil h]
  | cons v vs ih =>
    have h0 := hr 0 (by simp)
    simp only [scrollEvents, performAll, Event.perform]
    rw [if_pos (by simpa using h0)]
    simp only []
    rw [ih _ _ (Memory.writeRun_wf h _ _)]
    · simp only [Option.some.injEq, Outside.mk.injEq, and_true]
      exact Memory.writeRun_append h a (cellsToBytes [v]) (cellsToBytes vs)
    · intro k hk
      have := hr (k + 1) (by simp; omega)
      have l : (cellsToBytes [v]).length = 2 := rfl
      simp only [WIDTH] at *
      rw [Memory.read_writeRun_outside _ _ _ _ (by omega), Memory.read_writeRun_outside _ _ _ _ (by omega),
        show a + 2 + 2 * 80 + 2 * k = a + 2 * 80 + 2 * (k + 1) by omega]
      simpa using this

/-- The port writes of a CURSOR_SYNC, performed. -/
theorem performAll_syncEvents (p : Params) (off : Word) (o : Outside) (h : p.wf = true) :
    performAll p (syncEvents p off) o = some { o with crtc := syncedCrtc p off } := by
  have h1 := (params_wf_iff.1 h).2.1
  have h2 := (params_wf_iff.1 h).2.2.2.2.2.2.2.1
  simp [syncEvents, performAll, Event.perform, crtcWrite, syncedCrtc, h1.symm, h2.symm]

/-! ## What a PUTC body keeps -/

theorem State.putcShape_wf {s t : State} (h : s.putcShape t) (hm : s.mem.wf) : t.mem.wf := by
  obtain ⟨v, x, y, hv, ht, -⟩ := h
  have : v.mem.wf := by
    rcases hv with rfl | ⟨i, w, -, rfl⟩
    · exact hm
    · exact s.writeCells_wf hm _ _
  rcases ht with rfl | rfl
  · exact this
  · exact v.scroll_wf this

theorem State.putcShape_memInWindow {s t : State} (h : s.putcShape t) (hm : s.memInWindow) :
    t.memInWindow := by
  obtain ⟨v, x, y, hv, ht, -⟩ := h
  have : v.memInWindow := by
    rcases hv with rfl | ⟨i, w, hi, rfl⟩
    · exact hm
    · exact s.writeCells_memInWindow hm _ _ (by simp only [List.length_singleton]; omega)
  rcases ht with rfl | rfl
  · exact this
  · exact v.scroll_memInWindow this

theorem State.putcShape_cursorInRange {s t : State} (h : s.putcShape t) (hc : s.cursorInRange) :
    t.cursorInRange := by
  obtain ⟨v, x, y, hv, ht, hxy⟩ := h
  rcases ht with rfl | rfl <;> exact hxy hc

/-- A PUTC body only appends events. -/
theorem State.putcShape_trace {s t : State} (h : s.putcShape t) : ∃ es, t.trace = s.trace ++ es := by
  obtain ⟨v, x, y, hv, ht, -⟩ := h
  obtain ⟨es, he⟩ : ∃ es, v.trace = s.trace ++ es := by
    rcases hv with rfl | ⟨i, w, -, rfl⟩
    · exact ⟨[], by simp⟩
    · exact ⟨_, rfl⟩
  rcases ht with rfl | rfl
  · exact ⟨es, he⟩
  · exact ⟨_, by show v.scroll.trace = _; rw [State.scroll_trace, he, List.append_assoc]⟩

end Sys2Proof.Machine
end

