-- ==== Sys2Proof/Laws/PerInstr.lean ====
section
/-! SUPPORT. Statements made once per constructor of Instr: the encoding of a well-formed instruction lies in
its own row of spec/opcode_table.json. -/

namespace Sys2Proof.Laws.MatchesRow

/-- A well-formed instruction's encoding is admitted by its row of the opcode table. -/
def Statement (i : Instr) : Prop := i.wf = true → (opcodeRow i).admits (encode i) = true

theorem putcNl : Statement .putcNl := by unfold Statement; decide

theorem putcTab : Statement .putcTab := by unfold Statement; decide

theorem putcBs : Statement .putcBs := by unfold Statement; decide

theorem putcPlain (c : Byte) : Statement (.putcPlain c) := by
  revert c; unfold Statement; decide

theorem setcolor (fg bg : Colour) : Statement (.setcolor fg bg) := by
  revert fg bg; unfold Statement; decide

theorem init : Statement .init := by unfold Statement; decide

theorem scShiftMake (k : ShiftKey) : Statement (.scShiftMake k) := by
  cases k <;> (unfold Statement; decide)

theorem scShiftBreak (k : ShiftKey) : Statement (.scShiftBreak k) := by
  cases k <;> (unfold Statement; decide)

theorem scCapsMake : Statement .scCapsMake := by unfold Statement; decide

theorem scBreakOther (key : Key) : Statement (.scBreakOther key) := by
  revert key; unfold Statement; decide

theorem scKeyMake (key : Key) : Statement (.scKeyMake key) := by
  revert key; unfold Statement; decide

end Sys2Proof.Laws.MatchesRow
end

