-- ==== Sys2Proof/Laws/Sequences.lean ====
section
/-! SUPPORT. Instructions performed one after another, and the event lists and framebuffers that statements
about sequences name. -/

namespace Sys2Proof.Machine

/-! ## Sequences of instructions -/

/-- One more instruction at the end of a sequence that ends well. -/
theorem execAll_concat {xs : List Instr} {i : Instr} {s t u : State} (h : execAll xs s = .next t)
    (hf : t.fault = none) (hi : exec i t = .next u) (hu : u.fault = none) :
    execAll (xs ++ [i]) s = .next u := by
  induction xs generalizing s with
  | nil => cases h; simp [execAll, hi, hu]
  | cons x xs ih =>
    simp only [execAll, List.cons_append] at *
    split at h
    · split at h
      · next h0 => rw [if_pos h0]; exact ih h
      · next h0 => cases h; exact absurd hf h0
    · cases h
    · cases h

/-! ## Scrolls -/

/-- A scroll's events depend on rows 1 to 24 only (R57). -/
theorem scrollTrace_congr {p : Params} {f g : Nat → Word} {a : Byte}
    (h : ∀ i, 80 ≤ i → i < 2000 → f i = g i) : scrollTrace p f a = scrollTrace p g a := by
  have moved : ∀ n, n ≤ 1920 →
      (List.range n).flatMap (fun i => [Event.memRead (p.fbBase + 2 * (i + 80)) (f (i + 80)),
          .memWrite (p.fbBase + 2 * i) (f (i + 80))])
        = (List.range n).flatMap (fun i => [Event.memRead (p.fbBase + 2 * (i + 80)) (g (i + 80)),
          .memWrite (p.fbBase + 2 * i) (g (i + 80))]) := by
    intro n
    induction n with
    | zero => intro _; rfl
    | succ n ih =>
      intro hn
      rw [List.range_succ, List.flatMap_append, List.flatMap_append, ih (by omega)]
      simp only [List.flatMap_singleton]
      rw [h (n + 80) (by omega) (by omega)]
  unfold scrollTrace
  rw [moved 1920 (Nat.le_refl _)]

/-- A scroll loads 1920 cells (R104). -/
theorem scrollTrace_reads (p : Params) (f : Nat → Word) (a : Byte) :
    (scrollTrace p f a).countP Event.isRead = 1920 := by
  have moved : ∀ n, ((List.range n).flatMap (fun i => [Event.memRead (p.fbBase + 2 * (i + 80)) (f (i + 80)),
      .memWrite (p.fbBase + 2 * i) (f (i + 80))])).countP Event.isRead = n := by
    intro n
    induction n with
    | zero => rfl
    | succ n ih => rw [List.range_succ, List.flatMap_append, List.countP_append, ih]; rfl
  have blanked : ∀ n, ((List.range n).map (fun x => Event.memWrite (p.fbBase + 2 * (1920 + x))
      (blank a))).countP Event.isRead = 0 := by
    intro n
    induction n with
    | zero => rfl
    | succ n ih => rw [List.range_succ, List.map_append, List.countP_append, ih]; rfl
  unfold scrollTrace
  rw [List.countP_append, moved, blanked]

/-- No row scrolled is the framebuffer itself. -/
theorem scrolledUp_zero (fb : Nat → Word) (a : Byte) {i : Nat} (h : i < 2000) : scrolledUp fb a 0 i = fb i := by
  unfold scrolledUp; rw [if_pos (by omega), Nat.mul_zero, Nat.add_zero]

/-- A newline loads cells only where it scrolls. -/
theorem newlineEvents_reads (p : Params) (fb : Nat → Word) (a : Byte) (r k : Nat) :
    (newlineEvents p fb a r k).countP Event.isRead = if r + k < 24 then 0 else 1920 := by
  unfold newlineEvents
  split
  · rfl
  · rw [List.countP_append, scrollTrace_reads]; rfl

/-! ## Rows of characters -/

theorem plainEvents_append (p : Params) (a : Byte) (row col : Nat) (xs ys : List Byte) :
    plainEvents p a row col (xs ++ ys)
      = plainEvents p a row col xs ++ plainEvents p a row (col + xs.length) ys := by
  induction xs generalizing col with
  | nil => rfl
  | cons x xs ih =>
    simp only [List.cons_append, plainEvents, ih, List.append_assoc, List.length_cons]
    rw [show col + 1 + xs.length = col + (xs.length + 1) by omega]

/-- One more character of a row is one more cell. -/
theorem overRow_concat (fb : Nat → Word) (a : Byte) (row : Nat) (xs : List Byte) (c : Byte) (i : Nat) :
    overRow fb a row (xs ++ [c]) i = if i = row * 80 + xs.length then a ++ c else overRow fb a row xs i := by
  unfold overRow
  simp only [List.length_append, List.length_singleton, List.getD_eq_getElem?_getD]
  by_cases h : i = row * 80 + xs.length
  · subst h; rw [if_pos (by omega), if_pos rfl]; simp
  · rw [if_neg h]
    by_cases h2 : row * 80 ≤ i ∧ i < row * 80 + xs.length
    · rw [if_pos (by omega), if_pos h2, List.getElem?_append_left (by omega)]
    · rw [if_neg (by omega), if_neg h2]

end Sys2Proof.Machine
end

