-- ==== Sys2Proof/Tests/Slice0.lean ====
section
/-! SUPPORT. Tests: the check of instruction terms, decoding of words written out from the encodings of
30_encoding.md, at most two single steps per instruction taken from 95_test_vectors.md, and a witness for the
hypotheses of each statement. -/

namespace Sys2Proof.Tests

open Sys2Proof Sys2Proof.Machine

/-! ## Helpers -/

/-- An initialised block with its cursor at a position and an attribute. -/
def placed (col : BitVec 7) (row : BitVec 5) (attr : Byte) : State :=
  { State.reset with initDone := true, cursorCol := col, cursorRow := row, attr := attr }

/-- `s` with one input lined up. -/
def given (s : State) (x : Input) : State := { s with inputs := [x] }

/-- `s` in phase READ with one scancode lined up. -/
def reading (s : State) (sc : Byte) : State := { s with inputs := [.keyboard sc], phase := .read }

/-- Whether an outcome is a next state with a property. -/
def after (o : Host.Outcome State Fault Refusal) (q : State → Bool) : Bool :=
  match o with
  | .next t => q t
  | .fault _ => false
  | .refused _ => false

theorem after_next {o : Host.Outcome State Fault Refusal} {q : State → Bool} (h : after o q = true) :
    ∃ t, o = .next t ∧ q t = true := by
  cases o with
  | next t => exact ⟨t, rfl, h⟩
  | fault _ => exact absurd h (by simp [after])
  | refused _ => exact absurd h (by simp [after])

/-! ## Ill-formed terms are refused -/

theorem test_wf_plain_newline_refused : (Instr.putcPlain 0x0A).wf = false := by decide
theorem test_wf_plain_tab_refused : (Instr.putcPlain 0x09).wf = false := by decide
theorem test_wf_plain_backspace_refused : (Instr.putcPlain 0x08).wf = false := by decide
theorem test_wf_break_left_shift_refused : (Instr.scBreakOther 0x2A).wf = false := by decide
theorem test_wf_break_right_shift_refused : (Instr.scBreakOther 0x36).wf = false := by decide
theorem test_wf_make_left_shift_refused : (Instr.scKeyMake 0x2A).wf = false := by decide
theorem test_wf_make_right_shift_refused : (Instr.scKeyMake 0x36).wf = false := by decide
theorem test_wf_make_caps_refused : (Instr.scKeyMake 0x3A).wf = false := by decide
theorem test_wf_plain_accepted : (Instr.putcPlain 0x0D).wf = true := by decide

/-! ## Words written out from the encodings: OP, Z, ARG (R70, R71); break bit, key number (R77) -/

theorem test_decode_newline : decodeCommand 0b00_000000_00001010#16 = .instr .putcNl := by decide
theorem test_decode_tab : decodeCommand 0b00_000000_00001001#16 = .instr .putcTab := by decide
theorem test_decode_backspace : decodeCommand 0b00_000000_00001000#16 = .instr .putcBs := by decide
theorem test_decode_plain : decodeCommand 0b00_000000_01000001#16 = .instr (.putcPlain 0x41) := by decide
theorem test_decode_setcolor : decodeCommand 0b01_000000_0001_1111#16 = .instr (.setcolor 15 1) := by decide
theorem test_decode_init : decodeCommand 0b10_000000_00000000#16 = .instr .init := by decide
theorem test_decode_shift_make_left : decodeScancode 0b0_0101010#8 = .scShiftMake .left := by decide
theorem test_decode_shift_make_right : decodeScancode 0b0_0110110#8 = .scShiftMake .right := by decide
theorem test_decode_shift_break_left : decodeScancode 0b1_0101010#8 = .scShiftBreak .left := by decide
theorem test_decode_shift_break_right : decodeScancode 0b1_0110110#8 = .scShiftBreak .right := by decide
theorem test_decode_caps_make : decodeScancode 0b0_0111010#8 = .scCapsMake := by decide
theorem test_decode_caps_break : decodeScancode 0b1_0111010#8 = .scBreakOther 0x3A := by decide
theorem test_decode_key_make : decodeScancode 0b0_0011110#8 = .scKeyMake 0x1E := by decide

/-- Section 2.1: the reserved words of the table. -/
theorem test_decode_reserved :
    decodeCommand 0x0100 = .reserved .zBits ∧ decodeCommand 0x4100 = .reserved .zBits
      ∧ decodeCommand 0x8100 = .reserved .zBits ∧ decodeCommand 0x8001 = .reserved .initOperand
      ∧ decodeCommand 0xC000 = .reserved .opcode ∧ decodeCommand 0xFFFF = .reserved .opcode := by decide

/-- The opcode table's words, by their number of bits: a command, a scancode, a reserved word, no format. -/
theorem test_table_words :
    decodeTableWord 16 0x401F = some (.setcolor 15 1) ∧ decodeTableWord 8 0xB6 = some (.scShiftBreak .right)
      ∧ decodeTableWord 16 0xC000 = none ∧ decodeTableWord 24 0x0A = none := by decide

/-! ## Single steps of 95_test_vectors.md -/

/-- Section 2.7: at (5,3). -/
theorem test_newline_moves_down :
    after (step (given (placed 5 3 0x07) (.command 0x000A))) (fun t =>
      t.cursorCol == 0 && t.cursorRow == 4 && t.crtc == ⟨0x0E, 0x40, 0x01⟩
        && t.trace == [.portOut 0x3D4 0x0F, .portOut 0x3D5 0x40, .portOut 0x3D4 0x0E, .portOut 0x3D5 0x01])
      = true := by decide

/-- Section 2.7: at (10,24) with attribute 0x1F, over a cell of row 24. -/
theorem test_newline_scrolls :
    after (step (given { placed 10 24 0x1F with mem := [(0xB8F00, 0x41), (0xB8F01, 0x07)] } (.command 0x000A)))
      (fun t => t.cursorRow == 24 && t.cell 1840 == 0x0741 && t.cell 1920 == 0x1F20 && t.cell 1999 == 0x1F20
        && t.trace.length == 3924 && t.crtc == ⟨0x0E, 0x80, 0x07⟩) = true := by decide +kernel

/-- Section 2.8: from column 5. -/
theorem test_tab_to_stop :
    after (step (given (placed 5 2 0x07) (.command 0x0009))) (fun t =>
      t.cursorCol == 8 && t.cursorRow == 2 && t.mem == []) = true := by decide

/-- Section 2.8: from column 76. -/
theorem test_tab_overflows :
    after (step (given (placed 76 2 0x07) (.command 0x0009))) (fun t =>
      t.cursorCol == 0 && t.cursorRow == 3) = true := by decide

/-- Section 2.9: at (1,0) under another attribute than the erased cell's. -/
theorem test_backspace_erases :
    after (step (given { placed 1 0 0x1F with mem := [(0xB8000, 0x41), (0xB8001, 0x07)] } (.command 0x0008)))
      (fun t => t.cursorCol == 0 && t.cell 0 == 0x1F20 && t.crtc == ⟨0x0E, 0, 0⟩) = true := by decide

/-- Section 2.9: at (0,3). -/
theorem test_backspace_crosses :
    after (step (given (placed 0 3 0x07) (.command 0x0008))) (fun t =>
      t.cursorCol == 79 && t.cursorRow == 2 && t.cell 239 == 0x0720 && t.crtc == ⟨0x0E, 0xEF, 0⟩)
      = true := by decide

/-- Section 2.6: at (79,5). -/
theorem test_plain_wraps :
    after (step (given (placed 79 5 0x07) (.command 0x0071))) (fun t =>
      t.cell 479 == 0x0771 && t.cursorCol == 0 && t.cursorRow == 6 && t.crtc == ⟨0x0E, 0xE0, 0x01⟩)
      = true := by decide

/-- Section 2.6: at (79,24), the cell moved up by the scroll. -/
theorem test_plain_scrolls :
    after (step (given (placed 79 24 0x07) (.command 0x0078))) (fun t =>
      t.cell 1919 == 0x0778 && t.cell 1999 == 0x0720 && t.cursorCol == 0 && t.cursorRow == 24
        && t.trace.length == 3925) = true := by decide +kernel

/-- Section 2.4: before INIT. -/
theorem test_setcolor_before_init :
    after (step (given State.reset (.command 0x4002))) (fun t => t.attr == 0x02 && t.fault == none)
      = true := by decide

/-- Section 2.4: SETCOLOR 0,7. -/
theorem test_setcolor_background :
    after (step (given (placed 0 0 0x07) (.command 0x4070))) (fun t => t.attr == 0x70 && t.trace == [])
      = true := by decide

/-- Section 2.5: from power-on. -/
theorem test_init_clears :
    after (step (given State.reset (.command 0x8000))) (fun t =>
      t.cell 0 == 0x0720 && t.cell 1999 == 0x0720 && t.initDone && t.attr == 0x07 && t.trace.length == 2004)
      = true := by decide +kernel

/-- Section 2.5: the latches and the phase stay. -/
theorem test_init_keeps_latches :
    after (step (given { State.reset with shiftHeld := true, capsLocked := true, phase := .read }
      (.command 0x8000))) (fun t => t.shiftHeld && t.capsLocked && t.phase == .read) = true := by
  decide +kernel

/-- R136's example. -/
theorem test_shift_make :
    after (step (reading State.reset 0x36)) (fun t => t.shiftHeld && t.phase == .poll
      && t.trace == [.portIn 0x60 0x36]) = true := by decide

/-- R137's example. -/
theorem test_shift_break :
    after (step (reading { State.reset with shiftHeld := true } 0xAA)) (fun t => !t.shiftHeld)
      = true := by decide

/-- R138's example. -/
theorem test_caps_make :
    after (step (reading State.reset 0x3A)) (fun t => t.capsLocked) = true := by decide

/-- R138: the second make. -/
theorem test_caps_make_again :
    after (step (reading { State.reset with capsLocked := true } 0x3A)) (fun t => !t.capsLocked)
      = true := by decide

/-- Section 2.11: the caps break does nothing, and the byte is read. -/
theorem test_break_other :
    after (step (reading { State.reset with capsLocked := true } 0xBA)) (fun t =>
      t.capsLocked && t.phase == .poll && t.trace == [.portIn 0x60 0xBA]) = true := by decide

/-- R140's example. -/
theorem test_key_make_shifted :
    after (step (reading { placed 0 0 0x07 with shiftHeld := true } 0x1E)) (fun t =>
      t.cell 0 == 0x0741 && t.cursorCol == 1 && t.phase == .poll) = true := by decide

/-- Section 2.10: before INIT, phase READ stays. -/
theorem test_key_make_before_init :
    after (step (reading State.reset 0x1E)) (fun t =>
      t.fault == some (.notInitialized 0x61) && t.phase == .read && t.trace == []) = true := by decide

/-- Section 2.13: status reads 0x1C and 0x1D. -/
theorem test_poll :
    after (step (given State.reset (.keyboard 0x1C))) (fun t => t.phase == .poll)
      && after (step (given State.reset (.keyboard 0x1D))) (fun t => t.phase == .read) = true := by decide

/-- Section 2.10: the reserved check comes before the init check. -/
theorem test_reserved_before_init :
    after (step (given State.reset (.command 0x0141))) (fun t => t.fault == some (.reservedCommand 0x0141))
      = true := by decide

/-! ## Witnesses: encodings -/

theorem witness_DecodeOfEncodeIsTheInstruction : (Instr.scKeyMake 0x1E).wf = true := by decide

theorem witness_EncodeOfDecodeIsTheInput : decode (.command 0x00FF) = .instr (.putcPlain 0xFF) := by decide

/-- Each clause at the ends of its range. -/
theorem witness_CommandWordsDecodeByValue :
    decodeCommand 0x000A = .instr .putcNl ∧ decodeCommand 0x0009 = .instr .putcTab
      ∧ decodeCommand 0x0008 = .instr .putcBs
      ∧ decodeCommand 0x0000 = .instr (.putcPlain 0x00) ∧ decodeCommand 0x0007 = .instr (.putcPlain 0x07)
      ∧ decodeCommand 0x000B = .instr (.putcPlain 0x0B) ∧ decodeCommand 0x00FF = .instr (.putcPlain 0xFF)
      ∧ decodeCommand 0x4000 = .instr (.setcolor 0 0) ∧ decodeCommand 0x40FF = .instr (.setcolor 15 15)
      ∧ decodeCommand 0x8000 = .instr .init
      ∧ decodeCommand 0x0100 = .reserved .zBits ∧ decodeCommand 0x3FFF = .reserved .zBits
      ∧ decodeCommand 0x4100 = .reserved .zBits ∧ decodeCommand 0x7FFF = .reserved .zBits
      ∧ decodeCommand 0x8001 = .reserved .initOperand ∧ decodeCommand 0xFFFF = .reserved .opcode := by decide

/-- Each clause at the ends of its range. -/
theorem witness_ScancodesClassifyByValue :
    decodeScancode 0x2A = .scShiftMake .left ∧ decodeScancode 0x36 = .scShiftMake .right
      ∧ decodeScancode 0xAA = .scShiftBreak .left ∧ decodeScancode 0xB6 = .scShiftBreak .right
      ∧ decodeScancode 0x3A = .scCapsMake
      ∧ decodeScancode 0x80 = .scBreakOther 0x00 ∧ decodeScancode 0xFF = .scBreakOther 0x7F
      ∧ decodeScancode 0x00 = .scKeyMake 0x00 ∧ decodeScancode 0x7F = .scKeyMake 0x7F := by decide

theorem witness_ExactlyOneOpcodeRowAdmitsAnInput :
    decode (.keyboard 0xB6) = .instr (.scShiftBreak .right)
      ∧ (opcodeRow (.scShiftBreak .left)).admits (.keyboard 0xB6) = true := by decide

/-! ## Witnesses: steps -/

theorem witness_StepRunsTheCommand :
    (given State.reset (.command 0x8000)).running
      ∧ (given State.reset (.command 0x8000)).inputs = .command 0x8000 :: []
      ∧ decodeCommand 0x8000 = .instr .init := by decide

theorem witness_StepRunsTheScancode :
    (reading State.reset 0x2A).running ∧ (reading State.reset 0x2A).phase = .read
      ∧ (reading State.reset 0x2A).inputs = .keyboard 0x2A :: [] := by decide

theorem witness_PollReadsTheStatusPort :
    (given State.reset (.keyboard 0x01)).running ∧ (given State.reset (.keyboard 0x01)).phase = .poll
      ∧ (given State.reset (.keyboard 0x01)).inputs = .keyboard 0x01 :: [] := by decide

/-- The reserved clause by each of its three causes, and the other clause. -/
theorem witness_ReservedWordsRaiseTheirFault :
    (given State.reset (.command 0xC000)).running
      ∧ (given State.reset (.command 0xC000)).inputs = .command 0xC000 :: []
      ∧ (0xC000 : Word).extractLsb' 14 2 = 3 ∧ (0x0100 : Word).extractLsb' 8 6 ≠ 0
      ∧ ((0x8001 : Word).extractLsb' 14 2 = 2 ∧ (0x8001 : Word).extractLsb' 0 8 ≠ 0)
      ∧ ¬((0x40FF : Word).extractLsb' 14 2 = 3 ∨ (0x40FF : Word).extractLsb' 8 6 ≠ 0
          ∨ ((0x40FF : Word).extractLsb' 14 2 = 2 ∧ (0x40FF : Word).extractLsb' 0 8 ≠ 0)) := by decide

theorem witness_FaultedBlockTakesNoStep :
    (State.reset.raise (.reservedCommand 0xC000)).fault = some (.reservedCommand 0xC000) := by decide

/-- An odd FB_BASE. -/
theorem witness_ConfigurationsOutsideTheSpecAreRefused :
    State.reset.fault = none
      ∧ (State.powerOn { Params.reference with fbBase := 0xB8001 } PowerOnDraws.chosen).fault = none
      ∧ (State.powerOn { Params.reference with fbBase := 0xB8001 } PowerOnDraws.chosen).params.wf = false := by
  decide

theorem witness_FreeInputActsAsIfLinedUp : State.reset.inputs = [] := by decide

/-- A command word and a scancode. -/
theorem witness_FetchWordIsRunNext :
    State.reset.running ∧ decodeTableWord 16 0x8000 = some .init
      ∧ decodeTableWord 8 0x3A = some .scCapsMake := by decide

theorem witness_KeyLineIsAPollAndARead :
    let s := { State.reset with inputs := [.keyboard 0x01, .keyboard 0x1E, .command 0x8000] }
    s.running ∧ s.phase = .poll ∧ s.inputs = (Line.key 0x1E).inputs s.params ++ [.command 0x8000] := by decide

theorem witness_IdlePollsForAnyLength :
    let s := { State.reset with inputs := [.keyboard 0, .keyboard 0, .keyboard 0x01] }
    s.running ∧ s.phase = .poll ∧ s.inputs = (Line.idle 2).inputs s.params ++ [.keyboard 0x01] := by decide

/-! ## Witnesses: commands -/

theorem witness_InitClearsTheScreen : State.reset.params.wf = true := by decide

/-- The hypotheses of SetcolorThenPlainColoursTheCell. -/
abbrev mayColour (s : State) : Prop :=
  s.params.wf = true ∧ s.initDone = true ∧ s.cursorCol.toNat < 80 ∧ s.cursorRow.toNat < 25
    ∧ (s.cursorCol.toNat = 79 → s.cursorRow.toNat = 24 → s.mem.wf)

/-- Left of the last column, in it, and at (79,24) with canonical memory. -/
theorem witness_SetcolorThenPlainColoursTheCell :
    mayColour (placed 78 24 0x07) ∧ mayColour (placed 79 23 0x07)
      ∧ mayColour { placed 79 24 0x07 with mem := [(0xB8F00, 0x41)] } := by decide

theorem witness_PutcBeforeInitRaises :
    (Instr.putcPlain 0x41).putcChar = some 0x41 ∧ State.reset.initDone = false := by decide

theorem witness_NewlineMovesDown :
    let s := placed 79 23 0x07
    s.params.wf = true ∧ s.initDone = true ∧ s.cursorRow.toNat < 24 := by decide

theorem witness_NewlineScrollsAtTheLastRow :
    let s := { placed 10 24 0x1F with mem := [(0xB8F00, 0x41)] }
    s.params.wf = true ∧ s.mem.wf ∧ s.initDone = true ∧ s.cursorRow.toNat = 24 := by decide

theorem witness_TabMovesToTheNextStop :
    let s := placed 75 24 0x07
    s.params.wf = true ∧ s.initDone = true ∧ s.cursorCol.toNat < 76 := by decide

theorem witness_TabOverflowsToTheNextRow :
    let s := placed 76 23 0x07
    s.params.wf = true ∧ s.initDone = true ∧ 76 ≤ s.cursorCol.toNat ∧ s.cursorCol.toNat < 80
      ∧ s.cursorRow.toNat < 24 := by decide

theorem witness_TabScrollsAtTheLastRow :
    let s := { placed 79 24 0x07 with mem := [(0xB8F00, 0x41)] }
    s.params.wf = true ∧ s.mem.wf ∧ s.initDone = true ∧ 76 ≤ s.cursorCol.toNat ∧ s.cursorCol.toNat < 80
      ∧ s.cursorRow.toNat = 24 := by decide

theorem witness_BackspaceAtTheOriginOnlySyncs :
    let s := placed 0 0 0x07
    s.params.wf = true ∧ s.initDone = true ∧ s.cursorCol = 0 ∧ s.cursorRow = 0 := by decide

theorem witness_BackspaceErasesToTheLeft :
    let s := placed 79 24 0x07
    s.params.wf = true ∧ s.initDone = true ∧ 0 < s.cursorCol.toNat ∧ s.cursorCol.toNat < 80
      ∧ s.cursorRow.toNat < 25 := by decide

theorem witness_BackspaceCrossesToThePreviousRow :
    let s := placed 0 1 0x07
    s.params.wf = true ∧ s.initDone = true ∧ s.cursorCol = 0 ∧ 0 < s.cursorRow.toNat
      ∧ s.cursorRow.toNat < 25 := by decide

theorem witness_PlainWritesAndAdvances :
    let s := placed 78 24 0x07
    s.params.wf = true ∧ s.initDone = true ∧ s.cursorCol.toNat < 79 ∧ s.cursorRow.toNat < 25 := by decide

theorem witness_PlainWrapsToTheNextRow :
    let s := placed 79 23 0x07
    s.params.wf = true ∧ s.initDone = true ∧ s.cursorCol.toNat = 79 ∧ s.cursorRow.toNat < 24 := by decide

theorem witness_PlainScrollsAtTheLastCell :
    let s := { placed 79 24 0x07 with mem := [(0xB8F00, 0x41)] }
    s.params.wf = true ∧ s.mem.wf ∧ s.initDone = true ∧ s.cursorCol.toNat = 79
      ∧ s.cursorRow.toNat = 24 := by decide

/-! ## Witnesses: scancodes -/

theorem witness_OtherBreaksDoNothing :
    0x80 ≤ (0x80 : Byte).toNat ∧ (0x80 : Byte).toNat ≠ 0xAA ∧ (0x80 : Byte).toNat ≠ 0xB6
      ∧ 0x80 ≤ (0xE0 : Byte).toNat ∧ (0xE0 : Byte).toNat ≠ 0xAA ∧ (0xE0 : Byte).toNat ≠ 0xB6 := by decide

theorem witness_UnmappedKeyDoesNothing :
    decodeKey State.reset.params 0x01 (xor State.reset.shiftHeld State.reset.capsLocked) = none := by decide

theorem witness_MappedKeyIsOnePutc :
    let s := { placed 79 24 0x07 with shiftHeld := true }
    s.params.wf = true ∧ s.initDone = true ∧ s.cursorInRange
      ∧ decodeKey s.params 0x1E (xor s.shiftHeld s.capsLocked) = some 0x41 := by decide

theorem witness_MappedKeyBeforeInitRaises :
    State.reset.initDone = false
      ∧ decodeKey State.reset.params 0x1E (xor State.reset.shiftHeld State.reset.capsLocked) = some 0x61 := by
  decide

/-- Each line of the table. -/
theorem witness_ShiftedSelectorTable :
    (State.reset.shiftHeld = false ∧ State.reset.capsLocked = false)
      ∧ ({ State.reset with shiftHeld := true }.shiftHeld = true
          ∧ { State.reset with shiftHeld := true }.capsLocked = false)
      ∧ ({ State.reset with capsLocked := true }.shiftHeld = false
          ∧ { State.reset with capsLocked := true }.capsLocked = true)
      ∧ ({ State.reset with shiftHeld := true, capsLocked := true }.shiftHeld = true
          ∧ { State.reset with shiftHeld := true, capsLocked := true }.capsLocked = true) := by decide

theorem witness_FixedKeymapEntries : Params.reference.wf = true := by decide

/-! ## Witnesses: operations and sequences -/

/-- The last cell. -/
theorem witness_CellStoreIsLittleEndian : 79 < 80 ∧ 24 < 25 := by decide

theorem witness_CursorSyncWritesTheOffset :
    (placed 79 24 0x07).params.wf = true ∧ (placed 79 24 0x07).cursorInRange := by decide

theorem witness_CursorRegistersTearBetweenBytes : Params.reference.wf = true := by decide

theorem witness_ScrollIsItsLoop : { placed 0 24 0x07 with mem := [(0xB8F00, 0x41)] }.mem.wf := by decide

/-- The hypotheses of PlainCharactersFillARow on the state alone. -/
abbrev mayFillRow (s : State) : Prop :=
  s.params.wf = true ∧ s.fault = none ∧ s.initDone = true ∧ s.cursorCol = 0

/-- Row 23, and row 24 with canonical memory. -/
theorem witness_PlainCharactersFillARow :
    (List.replicate 80 (0x78 : Byte)).length = 80
      ∧ (mayFillRow (placed 0 23 0x07) ∧ (placed 0 23 0x07).cursorRow.toNat < 24)
      ∧ mayFillRow { placed 0 24 0x07 with mem := [(0xB8F00, 0x41)] }
      ∧ (placed 0 24 0x07).cursorRow.toNat = 24
      ∧ Memory.wf [(0xB8F00, 0x41)] := by decide

theorem witness_NewlinesScrollByTheirExcess :
    let s := { placed 5 23 0x07 with mem := [(0xB8F00, 0x41)] }
    s.params.wf = true ∧ s.mem.wf ∧ s.fault = none ∧ s.initDone = true ∧ s.cursorRow.toNat < 25 ∧ 0 < 25 := by
  decide

theorem witness_WriteIsPutcOfEachByte :
    let s := { placed 5 3 0x07 with inputs := [.command 0x0048, .command 0x000A, .keyboard 0x00] }
    s.running ∧ s.cursorInRange ∧ s.initDone = true
      ∧ s.inputs = (Line.write [0x48, 0x0A]).inputs s.params ++ [.keyboard 0x00] := by decide

theorem witness_WriteStringStopsAtTheTerminator : (0x00 : Byte) ∉ [(0x48 : Byte), 0x69] := by decide

/-! ## Witnesses: the whole machine -/

theorem witness_StepKeepsTheInvariant :
    (given State.reset (.command 0x401E)).Inv
      ∧ ∃ t, step (given State.reset (.command 0x401E)) = .next t := ⟨by decide, _, rfl⟩

/-- A step that stores a cell. -/
theorem witness_EventsExplainEveryStep :
    (given (placed 0 0 0x07) (.command 0x0041)).mem.wf
      ∧ ∃ t, step (given (placed 0 0 0x07) (.command 0x0041)) = .next t ∧ t.trace.length = 5 := by
  obtain ⟨t, h, e⟩ := after_next
    (show after (step (given (placed 0 0 0x07) (.command 0x0041))) (fun t => t.trace.length == 5) = true by
      decide)
  exact ⟨by decide, t, h, by simpa using e⟩

theorem witness_EveryAccessIsInTheMap :
    ∃ t, step (given (placed 0 0 0x07) (.command 0x0041)) = .next t :=
  witness_EventsExplainEveryStep.2.imp fun _ h => h.1

theorem witness_RunningBlockAlwaysSteps : State.reset.running ∧ State.reset.cursorInRange := by decide

theorem witness_FaultingStepChangesOnlyTheFault :
    ∃ t, step (given State.reset (.command 0xC000)) = .next t ∧ t.fault ≠ none :=
  ⟨_, rfl, by decide⟩

/-- Each of the two causes, ErrNotInitialized from either kind of step. -/
theorem witness_FaultsAreRaisedExactlyWhenNamed :
    (∃ t, step (given State.reset (.command 0xC000)) = .next t
        ∧ t.fault = some (.reservedCommand 0xC000))
      ∧ (∃ t, step (given State.reset (.command 0x0041)) = .next t ∧ t.fault = some (.notInitialized 0x41))
      ∧ ∃ t, step (reading State.reset 0x1E) = .next t ∧ t.fault = some (.notInitialized 0x61) :=
  ⟨⟨_, rfl, by decide⟩, ⟨_, rfl, by decide⟩, ⟨_, rfl, by decide⟩⟩

theorem witness_DisplayCommandsIgnoreTheLatches :
    Instr.init.isCommand = true ∧ ∃ t, exec (.setcolor 1 2) State.reset = .next t := ⟨by decide, _, rfl⟩

/-- An instruction that changes the field each clause names. -/
theorem witness_FieldsHaveOnlyTheirWriters :
    after (exec (.setcolor 1 2) State.reset) (fun t => t.attr != State.reset.attr)
      && after (exec .init State.reset) (fun t => t.initDone != State.reset.initDone)
      && after (exec (.scShiftMake .left) State.reset) (fun t => t.shiftHeld != State.reset.shiftHeld)
      && after (exec .scCapsMake State.reset) (fun t => t.capsLocked != State.reset.capsLocked)
      && after (exec (.scBreakOther 0x60) { State.reset with phase := .read }) (fun t => t.phase != .read)
      && after (exec (.putcPlain 0x41) (placed 0 0 0x07)) (fun t => t.cursorCol != 0)
      && after (exec (.putcPlain 0x41) (placed 0 0 0x07)) (fun t => t.mem.read 0xB8000 != 0x00)
      = true := by decide +kernel

theorem witness_StepsNeverUndoInit :
    ∃ t, step (given (placed 0 0 0x07) (.command 0x401E)) = .next t ∧ (placed 0 0 0x07).initDone = true :=
  ⟨_, rfl, rfl⟩

end Sys2Proof.Tests
end

/-! ### Proofs for the scope family (00_scope.md): what a step runs, when it answers a next state, what a
fault leaves unchanged, and that its events explain what lies outside. -/

namespace Sys2Proof.Machine

/-! ## Which step is taken -/

/-- Two states with the same fault, the same parameters and the same taken input step alike. -/
theorem step_congr {s t : State} (hf : s.fault = t.fault) (hp : s.params = t.params)
    (hi : s.takeInput = t.takeInput) : step s = step t := by
  unfold step; rw [hf, hp, hi]

/-- The equation of a host step whose word decodes. -/
theorem hostStep_instr {w : Word} {i : Instr} (h : decodeCommand w = .instr i) (s : State) :
    hostStep w s = exec i s := by
  unfold hostStep; rw [h]

/-- Settles O8: the running block takes the word, and the host step on what is left is `exec`. -/
theorem stepRunsTheCommand : Obligations.StepRunsTheCommand := by
  intro s w rest i hrun hin hdec
  rw [step_running hrun, s.takeInput_cons hin]
  exact hostStep_instr hdec _

/-- Settles O13: the configuration check stands before any input is taken. -/
theorem configurationsOutsideTheSpecAreRefused : Obligations.ConfigurationsOutsideTheSpecAreRefused := by
  intro s hf hp
  unfold step
  rw [hf]
  exact if_neg (by rw [hp]; decide)

/-- Settles O14: both states take the same input and leave the same state behind. -/
theorem freeInputActsAsIfLinedUp : Obligations.FreeInputActsAsIfLinedUp := by
  intro s hin
  refine step_congr rfl rfl ?_
  rw [s.takeInput_nil hin, State.takeInput_cons _ rfl]
  simp only [← hin]

/-! ## A mapped key before INIT -/

theorem exec_scKeyMake (key : Key) (s : State) :
    exec (.scKeyMake key) s = finish s ((s.kbdRead (makeCode key)).forward (decodeKey s.params key s.shifted)) :=
  rfl

/-- The equation of SC.KEY_MAKE for a key that the table maps. -/
theorem exec_scKeyMake_mapped {s : State} {key : Key} {c : Byte}
    (h : decodeKey s.params key s.shifted = some c) :
    exec (.scKeyMake key) s = finish s ((s.kbdRead (makeCode key)).putc c (putcBody c)) := by
  rw [exec_scKeyMake, h]; rfl

/-- Settles O39: the PUTC that the key is forwarded to raises, and raising answers the state before the
step, not the one after the read. -/
theorem mappedKeyBeforeInitRaises : Obligations.MappedKeyBeforeInitRaises := by
  intro s key c hinit hkey
  rw [exec_scKeyMake_mapped hkey, (s.kbdRead (makeCode key)).putc_uninitialised c (putcBody c) hinit]
  rfl

/-! ## What a fault leaves unchanged -/

/-- An instruction leaves `fault` as it was, or its next state is the one before it with a fault raised. -/
theorem ExecCase.fault_eq_or_raise {s t : State} {i : Instr} (h : ExecCase s i t) :
    t.fault = s.fault ∨ ∃ cause, t = s.raise cause := by
  cases h with
  | putcRaised i c _ _ => exact .inr ⟨_, rfl⟩
  | keyRaised key c _ _ => exact .inr ⟨_, rfl⟩
  | putcDone i c u k _ _ hu _ =>
    obtain ⟨-, -, -, -, -, hfault, -⟩ := State.putcShape_frame hu
    exact .inl hfault
  | keyDone key c u k _ _ hu _ =>
    obtain ⟨-, -, -, -, -, hfault, -⟩ := State.putcShape_frame hu
    exact .inl hfault
  | setcolor fg bg => exact .inl rfl
  | init k _ => exact .inl rfl
  | shiftMake k => exact .inl rfl
  | shiftBreak k => exact .inl rfl
  | capsMake => exact .inl rfl
  | breakOther key => exact .inl rfl
  | keyNone key _ => exact .inl rfl

/-- A step leaves `fault` as it was, or its next state is the one whose input was taken with a fault raised. -/
theorem step_fault_eq_or_raise {s t : State} (h : step s = .next t) :
    t.fault = s.fault
      ∨ ∃ (u : State) (cause : Cause),
          u = { s with inputs := u.inputs, draws := u.draws } ∧ t = u.raise cause := by
  obtain ⟨-, x, u, -, hu, hcase⟩ := step_case h
  have hfu : u.fault = s.fault := by rw [hu]
  have of_exec {i : Instr} (hi : exec i u = .next t) : t.fault = u.fault ∨ ∃ cause, t = u.raise cause :=
    (exec_case hi).fault_eq_or_raise
  have taken : t.fault = u.fault ∨ ∃ cause, t = u.raise cause := by
    rcases hcase with ⟨w, why, -, -, rfl⟩ | ⟨w, i, -, -, hi⟩ | ⟨v, -, -, rfl⟩ | ⟨v, -, -, hi⟩
    · exact .inr ⟨_, rfl⟩
    · exact of_exec hi
    · exact .inl (u.kbdPoll_fault v)
    · exact of_exec hi
  exact taken.imp (·.trans hfu) fun ⟨cause, ht⟩ => ⟨u, cause, hu, ht⟩

/-- Settles O56: a fault can only have come from `raise`, on the state whose input was taken. -/
theorem faultingStepChangesOnlyTheFault : Obligations.FaultingStepChangesOnlyTheFault := by
  intro s t h hfault
  rcases step_fault_eq_or_raise h with heq | ⟨u, cause, hu, rfl⟩
  · exact absurd (heq.trans (running_of_step h).1) hfault
  · exact congrArg (State.raise · cause) hu

/-! ## A running block always steps -/

theorem newlineBody_ok (s : State) : ∃ u, newlineBody s = .ok u := ⟨_, rfl⟩

theorem tabBody_ok (s : State) : ∃ u, tabBody s = .ok u := by
  by_cases h : s.cursorCol.toNat < 76
  · exact ⟨_, tabBody_inside s h⟩
  · rw [tabBody_overflow s (by omega)]
    exact newlineBody_ok s

/-- The three places a backspace can start from, the two later ones with a cell to blank. -/
theorem backspaceBody_ok {s : State} (h : s.cursorInRange) : ∃ u, backspaceBody s = .ok u := by
  obtain ⟨hcol, hrow⟩ := h
  by_cases hc : s.cursorCol = 0
  · by_cases hr : s.cursorRow = 0
    · exact ⟨_, backspaceBody_origin s hc hr⟩
    · exact ⟨_, backspaceBody_previous s hc (by bv_omega) hrow⟩
  · exact ⟨_, backspaceBody_left s (by bv_omega) hcol hrow⟩

theorem plainBody_ok {s : State} (c : Byte) (h : s.cursorInRange) : ∃ u, plainBody c s = .ok u := by
  obtain ⟨hcol, hrow⟩ := h
  by_cases hc : s.cursorCol.toNat < 79
  · exact ⟨_, plainBody_inside s c hc hrow⟩
  · rw [plainBody_wrap s c (by simp only [WIDTH] at hcol; omega) hrow]
    exact newlineBody_ok _

theorem putcBody_ok {s : State} (c : Byte) (h : s.cursorInRange) : ∃ u, putcBody c s = .ok u := by
  unfold putcBody
  split
  · exact newlineBody_ok s
  · split
    · exact tabBody_ok s
    · split
      · exact backspaceBody_ok h
      · exact plainBody_ok c h

/-- A PUTC whose body ends well ends its step with a next state: synced after INIT, a fault before it. -/
theorem finish_putc_next {before s : State} {c : Byte} {body : State → Except Stop State}
    (hp : s.params.wf = true) (hs : ∀ u, body s = .ok u → s.putcShape u) (hb : ∃ u, body s = .ok u) :
    ∃ t, finish before (s.putc c body) = .next t := by
  obtain ⟨u, hu⟩ := hb
  cases hi : s.initDone with
  | false => exact ⟨_, by rw [s.putc_uninitialised c body hi, finish_raised]⟩
  | true =>
    obtain ⟨-, -, -, -, -, -, -, hparams, -⟩ := State.putcShape_frame (hs u hu)
    exact ⟨_, by rw [s.putc_eq u c body hi hu (by rw [hparams, hp]), finish_ok]⟩

/-- Every instruction answers a next state when the cursor is in range (R115, R160). -/
theorem exec_next {s : State} (hp : s.params.wf = true) (hc : s.cursorInRange) (i : Instr) :
    ∃ t, exec i s = .next t := by
  cases i with
  | putcNl => exact finish_putc_next hp (fun _ => State.putcShape_of_newline (.inl rfl)) (newlineBody_ok s)
  | putcTab => exact finish_putc_next hp (fun _ => tabBody_shape) (tabBody_ok s)
  | putcBs => exact finish_putc_next hp (fun _ => backspaceBody_shape) (backspaceBody_ok hc)
  | putcPlain c => exact finish_putc_next hp (fun _ => plainBody_shape) (plainBody_ok c hc)
  | setcolor fg bg => exact ⟨_, rfl⟩
  | init =>
    have synced := s.cleared.cursorSync_eq hp
    exact ⟨_, congrArg (finish s) synced⟩
  | scShiftMake k => exact ⟨_, rfl⟩
  | scShiftBreak k => exact ⟨_, rfl⟩
  | scCapsMake => exact ⟨_, rfl⟩
  | scBreakOther key => exact ⟨_, rfl⟩
  | scKeyMake key =>
    cases hd : decodeKey s.params key s.shifted with
    | none => exact ⟨s.kbdRead (makeCode key), by rw [exec_scKeyMake, hd]; rfl⟩
    | some c =>
      rw [exec_scKeyMake_mapped hd]
      exact finish_putc_next (s := s.kbdRead (makeCode key)) hp (fun _ => putcBody_shape) (putcBody_ok c hc)

theorem hostStep_next {s : State} (hp : s.params.wf = true) (hc : s.cursorInRange) (w : Word) :
    ∃ t, hostStep w s = .next t := by
  cases hd : decodeCommand w with
  | instr i => rw [hostStep_instr hd]; exact exec_next hp hc i
  | reserved why => exact ⟨s.raise (.reservedCommand w), by unfold hostStep; rw [hd]⟩

theorem keyboardStep_next {s : State} (hp : s.params.wf = true) (hc : s.cursorInRange) (v : Byte) :
    ∃ t, keyboardStep v s = .next t := by
  unfold keyboardStep
  split
  · exact ⟨_, rfl⟩
  · exact exec_next hp hc _

/-- Taking an input changes neither the parameters nor the cursor. -/
theorem State.takeInput_frame {s u : State} {x : Input} (h : s.takeInput = (x, u)) :
    u.params = s.params ∧ u.cursorCol = s.cursorCol ∧ u.cursorRow = s.cursorRow := by
  unfold State.takeInput at h
  split at h <;> cases h <;> exact ⟨rfl, rfl, rfl⟩

/-- Settles O55: taking the input keeps the hypotheses, and either kind of step then has a next state. -/
theorem runningBlockAlwaysSteps : Obligations.RunningBlockAlwaysSteps := by
  intro s hrun hc
  rw [step_running hrun]
  rcases htake : s.takeInput with ⟨x, u⟩
  obtain ⟨hparams, hcol, hrow⟩ := State.takeInput_frame htake
  have hpu : u.params.wf = true := by rw [hparams]; exact hrun.2
  have hcu : u.cursorInRange := by rw [State.cursorInRange, hcol, hrow]; exact hc
  cases x with
  | command w => exact hostStep_next hpu hcu w
  | keyboard v => exact keyboardStep_next hpu hcu v

/-! ## Events explain what lies outside -/

/-- `t` is reached from `s` by the events in between: they are appended to the list, the parameters are kept, and
performed in order on what lay outside `s` they give what lies outside `t`. -/
def State.eventsLeadTo (s t : State) : Prop :=
  t.params = s.params
    ∧ ∃ es, t.trace = s.trace ++ es ∧ performAll s.params es s.outside = some t.outside

/-- A change that neither emits nor reaches outside is reached by no events. -/
theorem State.eventsLeadTo_of_quiet {s t : State} (hp : t.params = s.params) (ht : t.trace = s.trace)
    (ho : t.outside = s.outside) : s.eventsLeadTo t :=
  ⟨hp, [], by rw [ht, List.append_nil], by rw [ho]; rfl⟩

theorem State.eventsLeadTo.trans {s t u : State} (hst : s.eventsLeadTo t) (htu : t.eventsLeadTo u) :
    s.eventsLeadTo u := by
  obtain ⟨hp, es, ht, ho⟩ := hst
  obtain ⟨hp', fs, ht', ho'⟩ := htu
  refine ⟨hp'.trans hp, es ++ fs, by rw [ht', ht, List.append_assoc], ?_⟩
  rw [performAll_append, ho, ← hp]
  exact ho'

theorem State.eventsLeadTo_writeCells (s : State) (hm : s.mem.wf) (i : Nat) (vs : List Word) :
    s.eventsLeadTo (s.writeCells i vs) :=
  ⟨rfl, _, rfl, performAll_memWriteEvents s.params vs _ s.outside hm⟩

/-- SCROLL's one run of stores is what its loads and stores do one at a time: each load finds the cell as it
was before the scroll, and the blanks follow directly behind the kept rows. -/
theorem State.eventsLeadTo_scroll (s : State) (hm : s.mem.wf) : s.eventsLeadTo s.scroll := by
  refine ⟨rfl, _, s.scroll_trace, ?_⟩
  have kept : performAll s.params (scrollEvents (cellAddr s.params 0) (s.cells WIDTH (CELLS - WIDTH))) s.outside
      = some { s.outside with
          mem := s.mem.writeRun (cellAddr s.params 0) (cellsToBytes (s.cells WIDTH (CELLS - WIDTH))) } := by
    refine performAll_scrollEvents s.params _ _ s.outside hm fun k hk => ?_
    simp only [s.cells_eq hm, List.getElem_map, List.getElem_range, State.cell, State.outside]
    rw [show cellAddr s.params (WIDTH + k) = cellAddr s.params 0 + 2 * WIDTH + 2 * k by unfold cellAddr; omega]
  have blanksBehind : cellAddr s.params (CELLS - WIDTH)
      = cellAddr s.params 0 + (cellsToBytes (s.cells WIDTH (CELLS - WIDTH))).length := by
    rw [cellsToBytes_length, State.cells_length]; unfold cellAddr; omega
  rw [performAll_append, kept, Option.bind_some, performAll_memWriteEvents _ _ _ _ (Memory.writeRun_wf hm _ _),
    blanksBehind, Memory.writeRun_append hm, ← cellsToBytes_append, ← State.scroll_mem]
  rfl

/-- One CURSOR_SYNC, in a configuration the spec covers. -/
theorem State.eventsLeadTo_sync (s : State) (hp : s.params.wf = true) (off : Word) :
    s.eventsLeadTo ((s.setCrtc (syncedCrtc s.params off)).emit (syncEvents s.params off)) :=
  ⟨rfl, _, rfl, performAll_syncEvents s.params off s.outside hp⟩

theorem State.eventsLeadTo_kbdRead (s : State) (sc : Byte) : s.eventsLeadTo (s.kbdRead sc) := ⟨rfl, _, rfl, rfl⟩

theorem State.eventsLeadTo_kbdPoll (s : State) (v : Byte) : s.eventsLeadTo (s.kbdPoll v) :=
  ⟨s.kbdPoll_params v, _, s.kbdPoll_trace v, by simp [performAll, Event.perform, State.outside]⟩

/-- Any PUTC body: at most one store, at most one scroll, then the cursor. -/
theorem State.putcShape_eventsLeadTo {s t : State} (h : s.putcShape t) (hm : s.mem.wf) : s.eventsLeadTo t := by
  obtain ⟨v, x, y, hv, ht, -⟩ := h
  have stored : s.eventsLeadTo v ∧ v.mem.wf := by
    rcases hv with rfl | ⟨i, w, -, rfl⟩
    · exact ⟨State.eventsLeadTo_of_quiet rfl rfl rfl, hm⟩
    · exact ⟨s.eventsLeadTo_writeCells hm i [w], s.writeCells_wf hm i [w]⟩
  obtain ⟨hsv, hvm⟩ := stored
  rcases ht with rfl | rfl
  · exact hsv.trans (State.eventsLeadTo_of_quiet rfl rfl rfl)
  · exact (hsv.trans (v.eventsLeadTo_scroll hvm)).trans (State.eventsLeadTo_of_quiet rfl rfl rfl)

/-- A PUTC that completes: its body, then one CURSOR_SYNC of where the body left the cursor. -/
theorem State.eventsLeadTo_putc {s u : State} {k : Crtc} (hm : s.mem.wf) (hp : s.params.wf = true)
    (hu : s.putcShape u) (hk : s.params.wf = true → k = syncedCrtc u.params u.offset) :
    s.eventsLeadTo ((u.setCrtc k).emit (syncEvents u.params u.offset)) := by
  have hbody := State.putcShape_eventsLeadTo hu hm
  rw [hk hp]
  exact hbody.trans (u.eventsLeadTo_sync (by rw [hbody.1, hp]) u.offset)

/-- INIT up to its CURSOR_SYNC: the 2000 cell stores. -/
theorem State.eventsLeadTo_cleared (s : State) (hm : s.mem.wf) : s.eventsLeadTo s.cleared :=
  let t := s.setAttr s.params.defaultAttr
  have coloured : s.eventsLeadTo t := State.eventsLeadTo_of_quiet rfl rfl rfl
  (coloured.trans (t.eventsLeadTo_writeCells hm 0 _)).trans (State.eventsLeadTo_of_quiet rfl rfl rfl)

/-- The events of every instruction explain its next state. -/
theorem ExecCase.eventsLeadTo {s t : State} {i : Instr} (h : ExecCase s i t) (hm : s.mem.wf)
    (hp : s.params.wf = true) : s.eventsLeadTo t := by
  cases h with
  | putcRaised i c _ _ => exact State.eventsLeadTo_of_quiet rfl rfl rfl
  | putcDone i c u k _ _ hu hk => exact State.eventsLeadTo_putc hm hp hu hk
  | setcolor fg bg => exact State.eventsLeadTo_of_quiet rfl rfl rfl
  | init k hk =>
    rw [hk hp]
    exact (s.eventsLeadTo_cleared hm).trans (s.cleared.eventsLeadTo_sync hp _)
  | shiftMake k => exact (s.eventsLeadTo_kbdRead _).trans (State.eventsLeadTo_of_quiet rfl rfl rfl)
  | shiftBreak k => exact (s.eventsLeadTo_kbdRead _).trans (State.eventsLeadTo_of_quiet rfl rfl rfl)
  | capsMake => exact (s.eventsLeadTo_kbdRead _).trans (State.eventsLeadTo_of_quiet rfl rfl rfl)
  | breakOther key => exact s.eventsLeadTo_kbdRead _
  | keyNone key _ => exact s.eventsLeadTo_kbdRead _
  | keyRaised key c _ _ => exact State.eventsLeadTo_of_quiet rfl rfl rfl
  | keyDone key c u k _ _ hu hk =>
    exact (s.eventsLeadTo_kbdRead _).trans (State.eventsLeadTo_putc (s := s.kbdRead (makeCode key)) hm hp hu hk)

/-- The events of every step explain its next state. -/
theorem step_eventsLeadTo {s t : State} (hm : s.mem.wf) (h : step s = .next t) : s.eventsLeadTo t := by
  obtain ⟨⟨-, hp⟩, x, u, -, hu, hcase⟩ := step_case h
  have taken : s.eventsLeadTo u := by rw [hu]; exact State.eventsLeadTo_of_quiet rfl rfl rfl
  have hmu : u.mem.wf := by rw [hu]; exact hm
  have hpu : u.params.wf = true := by rw [taken.1, hp]
  refine taken.trans ?_
  rcases hcase with ⟨w, why, -, -, rfl⟩ | ⟨w, i, -, -, hi⟩ | ⟨v, -, -, rfl⟩ | ⟨v, -, -, hi⟩
  · exact State.eventsLeadTo_of_quiet rfl rfl rfl
  · exact (exec_case hi).eventsLeadTo hmu hpu
  · exact u.eventsLeadTo_kbdPoll v
  · exact (exec_case hi).eventsLeadTo hmu hpu

/-- Settles O53: the relation `State.eventsLeadTo` holds of every shared operation and composes, so it holds of
every instruction (by the inversion of `exec`) and of every step. -/
theorem eventsExplainEveryStep : Obligations.EventsExplainEveryStep := by
  intro s t hm h
  obtain ⟨-, explained⟩ := step_eventsLeadTo hm h
  exact explained

end Sys2Proof.Machine

/-! ### Proofs for the state family (10_state.md): power-on, the invariant of R37, who writes which field, and
the operations on memory and the CRTC that the fields' rules name. -/

namespace Sys2Proof.Machine

/-! ## The invariant -/

/-- The invariant reads memory, the parameters, the cursor, `init_done` and the CRTC only. -/
theorem State.Inv.congr {s t : State} (h : s.Inv) (hmem : t.mem = s.mem) (hparams : t.params = s.params)
    (hcol : t.cursorCol = s.cursorCol) (hrow : t.cursorRow = s.cursorRow) (hinit : t.initDone = s.initDone)
    (hcrtc : t.crtc = s.crtc) : t.Inv := by
  simp only [State.Inv, State.memInWindow, State.cursorInRange, State.crtcSynced, State.offset, hmem, hparams,
    hcol, hrow, hinit, hcrtc]
  exact h

/-- A CURSOR_SYNC brings the CRTC in step with the cursor, wherever both were before. -/
theorem State.inv_of_sync {u : State} (hwf : u.mem.wf) (hwin : u.memInWindow) (hcur : u.cursorInRange)
    (es : List Event) : ((u.setCrtc (syncedCrtc u.params u.offset)).emit es).Inv :=
  ⟨hwf, hwin, hcur, fun _ => ⟨syncedCrtc_location u.params u.offset, rfl⟩⟩

/-- A PUTC that completes: its body keeps memory and cursor as the invariant wants them, its CURSOR_SYNC the
CRTC. -/
theorem State.Inv.putc {s u : State} {k : Crtc} (h : s.Inv) (hp : s.params.wf = true) (hu : s.putcShape u)
    (hk : s.params.wf = true → k = syncedCrtc u.params u.offset) (es : List Event) :
    ((u.setCrtc k).emit es).Inv := by
  obtain ⟨hwf, hwin, hcur, -⟩ := h
  rw [hk hp]
  exact State.inv_of_sync (State.putcShape_wf hu hwf) (State.putcShape_memInWindow hu hwin)
    (State.putcShape_cursorInRange hu hcur) es

theorem State.cleared_memInWindow {s : State} (h : s.memInWindow) : s.cleared.memInWindow :=
  (s.setAttr s.params.defaultAttr).writeCells_memInWindow h 0 _ (by rw [List.length_replicate]; omega)

theorem State.cleared_cursorInRange (s : State) : s.cleared.cursorInRange :=
  ⟨by simp [State.cleared, WIDTH], by simp [State.cleared, HEIGHT]⟩

/-- Every instruction keeps the invariant. -/
theorem ExecCase.inv {s t : State} {i : Instr} (h : ExecCase s i t) (hp : s.params.wf = true) (hs : s.Inv) :
    t.Inv := by
  cases h with
  | putcDone i c u k _ _ hu hk => exact hs.putc hp hu hk _
  | init k hk =>
    obtain ⟨hwf, hwin, -, -⟩ := hs
    rw [hk hp]
    exact State.inv_of_sync (Memory.writeRun_wf hwf _ _) (State.cleared_memInWindow hwin)
      s.cleared_cursorInRange _
  | keyDone key c u k _ _ hu hk =>
    have hread : (s.kbdRead (makeCode key)).Inv := hs.congr rfl rfl rfl rfl rfl rfl
    exact hread.putc hp hu hk _
  | _ => exact hs.congr rfl rfl rfl rfl rfl rfl

/-- Settles O52: taking an input, raising a fault and polling leave the invariant's fields alone, and every
instruction keeps it by the inversion of `exec`. -/
theorem stepKeepsTheInvariant : Obligations.StepKeepsTheInvariant := by
  intro s t hs h
  obtain ⟨⟨-, hp⟩, x, u, -, hu, hcase⟩ := step_case h
  have hus : u.Inv := by rw [hu]; exact hs.congr rfl rfl rfl rfl rfl rfl
  have hup : u.params.wf = true := by rw [hu]; exact hp
  rcases hcase with ⟨w, why, -, -, rfl⟩ | ⟨w, i, -, -, hi⟩ | ⟨v, -, -, rfl⟩ | ⟨v, -, -, hi⟩
  · exact hus.congr rfl rfl rfl rfl rfl rfl
  · exact (exec_case hi).inv hup hus
  · exact hus.congr (u.kbdPoll_mem v) (u.kbdPoll_params v) (u.kbdPoll_cursorCol v) (u.kbdPoll_cursorRow v)
      (u.kbdPoll_initDone v) (u.kbdPoll_crtc v)
  · exact (exec_case hi).inv hup hus

/-! ## Power-on -/

/-- Power-on meets the invariant whatever CRTC is drawn: only memory and the cursor have to be as
the invariant wants them, since `init_done` is 0. -/
theorem State.powerOn_inv {p : Params} {d : PowerOnDraws} (hwf : d.mem.wf)
    (hwin : (State.powerOn p d).memInWindow) (hcur : (State.powerOn p d).cursorInRange) :
    (State.powerOn p d).Inv :=
  ⟨hwf, hwin, hcur, fun hinit => absurd hinit Bool.false_ne_true⟩

/-- Settles O50: each field is the one power-on names. -/
theorem powerOnState : Obligations.PowerOnState :=
  fun _ _ => ⟨rfl, rfl, rfl, rfl, rfl, rfl, rfl, rfl, rfl, rfl, rfl⟩

/-- Settles O51: the chosen memory is empty and the chosen cursor (0,0). -/
theorem resetMeetsTheInvariant : Obligations.ResetMeetsTheInvariant := by
  have hwin : State.reset.memInWindow := fun x hx => absurd hx List.not_mem_nil
  have hcur : State.reset.cursorInRange := ⟨by decide, by decide⟩
  have hparams : Params.reference.wf = true := by decide
  exact ⟨State.powerOn_inv Memory.wf_nil hwin hcur, rfl, hparams⟩

/-! ## Cells and the CRTC -/

theorem cellChar_toNat (v : Word) : (cellChar v).toNat = v.toNat % 256 := by
  simp [cellChar, BitVec.extractLsb'_toNat]

theorem cellAttr_toNat (v : Word) : (cellAttr v).toNat = v.toNat / 256 := by
  have hv := v.isLt
  simp only [cellAttr, BitVec.extractLsb'_toNat, Nat.shiftRight_eq_div_pow]
  omega

/-- The character byte of a stored cell is the one at the cell's address. -/
theorem State.writeCells_read_char (s : State) (i : Nat) (v : Word) :
    (s.writeCells i [v]).mem.read (cellAddr s.params i) = cellChar v :=
  Memory.read_writeRun_inside s.mem (cellAddr s.params i) 0 (cellsToBytes [v]) (by simp)

/-- The upper byte of a stored cell is the one behind the cell's address. -/
theorem State.writeCells_read_attr (s : State) (i : Nat) (v : Word) :
    (s.writeCells i [v]).mem.read (cellAddr s.params i + 1) = cellAttr v :=
  Memory.read_writeRun_inside s.mem (cellAddr s.params i) 1 (cellsToBytes [v]) (by simp)

/-- Settles O42: in range, CELL_WRITE is one store of two bytes, the character byte first. -/
theorem cellStoreIsLittleEndian : Obligations.CellStoreIsLittleEndian := by
  intro s col row v hcol hrow
  refine ⟨_, s.cellWrite_ok v hcol hrow, rfl, s.writeCells_cell_self _ v, ?_, ?_, fun x hx => ?_⟩
  · exact (congrArg BitVec.toNat (s.writeCells_read_char _ v)).trans (cellChar_toNat v)
  · exact (congrArg BitVec.toNat (s.writeCells_read_attr _ v)).trans (cellAttr_toNat v)
  · exact s.writeCells_read_outside _ x [v] hx

/-- A write to the index port selects a register (R32). -/
theorem crtcWrite_index (p : Params) (c : Crtc) (v : Byte) :
    crtcWrite p c p.crtcIndexPort v = .ok { c with index := v } := by
  unfold crtcWrite; rw [if_pos rfl]

/-- A write to the data port while the low byte register is selected (R32). -/
theorem crtcWrite_lo {p : Params} {c : Crtc} (hp : p.wf = true) (hc : c.index = p.curLoIndex) (v : Byte) :
    crtcWrite p c p.crtcDataPort v = .ok { c with lo := v } := by
  obtain ⟨-, hports, -⟩ := params_wf_iff.1 hp
  unfold crtcWrite; rw [if_neg hports.symm, if_pos rfl, if_pos hc]

/-- The events of CURSOR_SYNC up to its low byte leave the old high byte in place. -/
theorem performAll_syncEvents_lo {p : Params} (hp : p.wf = true) (off : Word) (o : Outside) :
    performAll p ((syncEvents p off).take 2) o
      = some { o with crtc := { o.crtc with index := p.curLoIndex, lo := off.extractLsb' 0 8 } } := by
  simp [syncEvents, performAll, Event.perform, crtcWrite_index, crtcWrite_lo hp]

/-- Selecting the high byte register changes no location byte. -/
theorem performAll_syncEvents_hiIndex {p : Params} (hp : p.wf = true) (off : Word) (o : Outside) :
    performAll p ((syncEvents p off).take 3) o
      = some { o with crtc := { o.crtc with index := p.curHiIndex, lo := off.extractLsb' 0 8 } } := by
  have selected : (syncEvents p off).take 3
      = (syncEvents p off).take 2 ++ [.portOut p.crtcIndexPort p.curHiIndex] := rfl
  rw [selected, performAll_append, performAll_syncEvents_lo hp]
  simp [performAll, Event.perform, crtcWrite_index]

/-- Settles O44: the CRTC after two, three and all four of the port writes. -/
theorem cursorRegistersTearBetweenBytes : Obligations.CursorRegistersTearBetweenBytes := by
  intro p o off hp
  refine ⟨fun k hk => ?_, _, performAll_syncEvents p off o hp, rfl, syncedCrtc_location p off⟩
  rcases hk with rfl | rfl
  · exact ⟨_, performAll_syncEvents_lo hp off o, rfl, rfl⟩
  · exact ⟨_, performAll_syncEvents_hiIndex hp off o, rfl, rfl⟩

/-! ## Who writes which field -/

/-- The instructions with display activity: INIT, the PUTC forms, and KEY_MAKE, which forwards to one. -/
def displays (i : Instr) : Prop :=
  i = .init ∨ (∃ c, i.putcChar = some c) ∨ ∃ key, i = .scKeyMake key

theorem ExecCase.attr_writers {s t : State} {i : Instr} (h : ExecCase s i t) :
    t.attr = s.attr ∨ i = .init ∨ ∃ fg bg, i = .setcolor fg bg := by
  cases h with
  | init k _ => exact .inr (.inl rfl)
  | setcolor fg bg => exact .inr (.inr ⟨fg, bg, rfl⟩)
  | putcDone _ _ _ _ _ _ hu _ | keyDone _ _ _ _ _ _ hu _ =>
    obtain ⟨hattr, -⟩ := State.putcShape_frame hu
    exact .inl hattr
  | _ => exact .inl rfl

theorem ExecCase.initDone_writers {s t : State} {i : Instr} (h : ExecCase s i t) :
    t.initDone = s.initDone ∨ i = .init ∧ t.initDone = true := by
  cases h with
  | init k _ => exact .inr ⟨rfl, rfl⟩
  | putcDone _ _ _ _ _ _ hu _ | keyDone _ _ _ _ _ _ hu _ =>
    obtain ⟨-, hinit, -⟩ := State.putcShape_frame hu
    exact .inl hinit
  | _ => exact .inl rfl

theorem ExecCase.shiftHeld_writers {s t : State} {i : Instr} (h : ExecCase s i t) :
    t.shiftHeld = s.shiftHeld ∨ ∃ k, i = .scShiftMake k ∨ i = .scShiftBreak k := by
  cases h with
  | shiftMake k => exact .inr ⟨k, .inl rfl⟩
  | shiftBreak k => exact .inr ⟨k, .inr rfl⟩
  | putcDone _ _ _ _ _ _ hu _ | keyDone _ _ _ _ _ _ hu _ =>
    obtain ⟨-, -, hshift, -⟩ := State.putcShape_frame hu
    exact .inl hshift
  | _ => exact .inl rfl

theorem ExecCase.capsLocked_writers {s t : State} {i : Instr} (h : ExecCase s i t) :
    t.capsLocked = s.capsLocked ∨ i = .scCapsMake := by
  cases h with
  | capsMake => exact .inr rfl
  | putcDone _ _ _ _ _ _ hu _ | keyDone _ _ _ _ _ _ hu _ =>
    obtain ⟨-, -, -, hcaps, -⟩ := State.putcShape_frame hu
    exact .inl hcaps
  | _ => exact .inl rfl

theorem ExecCase.phase_writers {s t : State} {i : Instr} (h : ExecCase s i t) :
    t.phase = s.phase ∨ i.isCommand = false := by
  cases h with
  | putcRaised i c _ _ => exact .inl rfl
  | putcDone i c u k _ _ hu _ =>
    obtain ⟨-, -, -, -, hphase, -⟩ := State.putcShape_frame hu
    exact .inl hphase
  | setcolor fg bg => exact .inl rfl
  | init k _ => exact .inl rfl
  | _ => exact .inr rfl

/-- What is shown, the cursor, the CRTC and memory, changes only by an instruction that displays. -/
theorem ExecCase.display_writers {s t : State} {i : Instr} (h : ExecCase s i t) :
    (t.cursorCol = s.cursorCol ∧ t.cursorRow = s.cursorRow ∧ t.crtc = s.crtc ∧ t.mem = s.mem)
      ∨ displays i := by
  cases h with
  | putcDone i c u k hc _ _ _ => exact .inr (.inr (.inl ⟨c, hc⟩))
  | init k _ => exact .inr (.inl rfl)
  | keyDone key c u k _ _ _ _ => exact .inr (.inr (.inr ⟨key, rfl⟩))
  | _ => exact .inl ⟨rfl, rfl, rfl, rfl⟩

/-- No instruction writes the parameters or the model's own input fields. -/
theorem ExecCase.environment_eq {s t : State} {i : Instr} (h : ExecCase s i t) :
    t.params = s.params ∧ t.inputs = s.inputs ∧ t.draws = s.draws := by
  cases h with
  | putcDone _ _ _ _ _ _ hu _ | keyDone _ _ _ _ _ _ hu _ =>
    obtain ⟨-, -, -, -, -, -, -, henv⟩ := State.putcShape_frame hu
    exact henv
  | _ => exact ⟨rfl, rfl, rfl⟩

/-- Settles O59: field by field, the writers that the inversion of `exec` leaves. -/
theorem fieldsHaveOnlyTheirWriters : Obligations.FieldsHaveOnlyTheirWriters := by
  intro i s t h
  have hcase := exec_case h
  refine ⟨hcase.attr_writers.resolve_left, hcase.initDone_writers.resolve_left,
    hcase.shiftHeld_writers.resolve_left, hcase.capsLocked_writers.resolve_left,
    hcase.phase_writers.resolve_left, fun hshown => ?_, fun ⟨a, ha⟩ => ?_, hcase.environment_eq⟩
  · refine hcase.display_writers.resolve_left fun ⟨hcol, hrow, hcrtc, _⟩ => ?_
    rcases hshown with hne | hne | hne
    · exact hne hcol
    · exact hne hrow
    · exact hne hcrtc
  · exact hcase.display_writers.resolve_left fun ⟨_, _, _, hmem⟩ => ha (by rw [hmem])

/-! ## What no step undoes -/

/-- An instruction only appends events, in every configuration. -/
theorem ExecCase.trace_append {s t : State} {i : Instr} (h : ExecCase s i t) :
    ∃ es, t.trace = s.trace ++ es := by
  have synced {r u : State} {k : Crtc} {es : List Event} (hr : ∃ fs, r.trace = s.trace ++ fs)
      (hu : r.putcShape u) : ∃ fs, ((u.setCrtc k).emit es).trace = s.trace ++ fs := by
    obtain ⟨fs, hfs⟩ := hr
    obtain ⟨gs, hgs⟩ := State.putcShape_trace hu
    exact ⟨fs ++ (gs ++ es), by simp [hfs, hgs]⟩
  cases h with
  | putcDone i c u k _ _ hu _ => exact synced ⟨[], by simp⟩ hu
  | keyDone key c u k _ _ hu _ => exact synced ⟨_, rfl⟩ hu
  | init k _ => exact ⟨_, List.append_assoc _ _ _⟩
  | shiftMake k => exact ⟨_, rfl⟩
  | shiftBreak k => exact ⟨_, rfl⟩
  | capsMake => exact ⟨_, rfl⟩
  | breakOther key => exact ⟨_, rfl⟩
  | keyNone key _ => exact ⟨_, rfl⟩
  | _ => exact ⟨[], by simp⟩

/-- `t` undoes nothing of `s`: an INIT stays done, the parameters stay, the events so far stay. -/
def State.extendedBy (s t : State) : Prop :=
  (s.initDone = true → t.initDone = true) ∧ t.params = s.params ∧ ∃ es, t.trace = s.trace ++ es

theorem ExecCase.extendedBy {s t : State} {i : Instr} (h : ExecCase s i t) : s.extendedBy t := by
  obtain ⟨hparams, -⟩ := h.environment_eq
  refine ⟨fun hs => ?_, hparams, h.trace_append⟩
  rcases h.initDone_writers with heq | ⟨-, hset⟩
  · rw [heq, hs]
  · exact hset

/-- Settles O60: neither taking an input nor polling nor raising touches what `State.extendedBy` keeps, and no
instruction undoes it. -/
theorem stepsNeverUndoInit : Obligations.StepsNeverUndoInit := by
  intro s t h
  obtain ⟨⟨hfault, -⟩, x, u, -, hu, hcase⟩ := step_case h
  have taken : u.extendedBy t := by
    rcases hcase with ⟨w, why, -, -, rfl⟩ | ⟨w, i, -, -, hi⟩ | ⟨v, -, -, rfl⟩ | ⟨v, -, -, hi⟩
    · exact ⟨id, rfl, [], by simp⟩
    · exact (exec_case hi).extendedBy
    · exact ⟨(u.kbdPoll_initDone v).trans, u.kbdPoll_params v, _, u.kbdPoll_trace v⟩
    · exact (exec_case hi).extendedBy
  rw [hu] at taken
  obtain ⟨hinit, hparams, htrace⟩ := taken
  exact ⟨hinit, hparams, hfault, htrace⟩

/-! ## The latches and the phase (R143) -/

/-- A computation inside a step that neither reads nor writes the latches and the phase: replacing them
beforehand is replacing them afterwards. -/
def ignoresLatches (f : State → Except Stop State) : Prop :=
  ∀ (s : State) (b c : Bool) (ph : Phase),
    f (s.withLatches b c ph) = (f s).map (State.withLatches · b c ph)

theorem ignoresLatches.bind {f g : State → Except Stop State} (hf : ignoresLatches f)
    (hg : ignoresLatches g) : ignoresLatches (fun s => f s >>= g) := by
  intro s b c ph
  simp only [hf s b c ph]
  cases f s with
  | error e => rfl
  | ok t => exact hg t b c ph

/-- A case distinction on what does not depend on the latches and the phase. -/
theorem ignoresLatches.ite {P : State → Prop} [DecidablePred P] {f g : State → Except Stop State}
    (hP : ∀ s b c ph, P (s.withLatches b c ph) ↔ P s) (hf : ignoresLatches f) (hg : ignoresLatches g) :
    ignoresLatches (fun s => if P s then f s else g s) := by
  intro s b c ph
  simp only [hP s b c ph]
  by_cases h : P s
  · simp only [if_pos h]; exact hf s b c ph
  · simp only [if_neg h]; exact hg s b c ph

/-- A port write of a port and a byte that do not depend on the latches and the phase. -/
theorem ioWrite_ignoresLatches (port : State → Port) (v : State → Byte)
    (hport : ∀ s b c ph, port (s.withLatches b c ph) = port s)
    (hv : ∀ s b c ph, v (s.withLatches b c ph) = v s) : ignoresLatches (fun s => s.ioWrite (port s) (v s)) := by
  intro s b c ph
  simp only [State.ioWrite, hport, hv, State.withLatches_params, State.withLatches_crtc]
  cases crtcWrite s.params s.crtc (port s) (v s) <;> rfl

theorem cellWrite_withLatches (s : State) (col row : Nat) (v : Word) (b c : Bool) (ph : Phase) :
    (s.withLatches b c ph).cellWrite col row v = (s.cellWrite col row v).map (State.withLatches · b c ph) := by
  by_cases h : col < WIDTH ∧ row < HEIGHT
  · obtain ⟨hc, hr⟩ := h
    simp only [State.cellWrite_ok _ v hc hr]; rfl
  · simp only [State.cellWrite_outside _ v h]; rfl

/-- LINE_ADVANCE, and with it SCROLL (R104, R105). -/
theorem lineAdvance_withLatches (s : State) (b c : Bool) (ph : Phase) :
    (s.withLatches b c ph).lineAdvance = s.lineAdvance.withLatches b c ph := by
  by_cases h : s.cursorRow.toNat + 1 = HEIGHT
  · exact (State.lineAdvance_of_last (s.withLatches b c ph) h).trans
      (congrArg (State.withLatches · b c ph) (s.lineAdvance_of_last h)).symm
  · exact (State.lineAdvance_of_ne (s.withLatches b c ph) h).trans
      (congrArg (State.withLatches · b c ph) (s.lineAdvance_of_ne h)).symm

/-- CURSOR_SYNC: two selects and two bytes of the cursor's offset. -/
theorem cursorSync_ignoresLatches : ignoresLatches State.cursorSync := by
  have select (v : Params → Byte) : ignoresLatches (fun s => s.ioWrite s.params.crtcIndexPort (v s.params)) :=
    ioWrite_ignoresLatches _ _ (fun _ _ _ _ => rfl) (fun _ _ _ _ => rfl)
  have data (v : Byte) : ignoresLatches (fun s => s.ioWrite s.params.crtcDataPort v) :=
    ioWrite_ignoresLatches _ _ (fun _ _ _ _ => rfl) (fun _ _ _ _ => rfl)
  intro s
  exact ((select (·.curLoIndex)).bind ((data (s.offset.extractLsb' 0 8)).bind
    ((select (·.curHiIndex)).bind (data (s.offset.extractLsb' 8 8))))) s

theorem newlineBody_ignoresLatches : ignoresLatches newlineBody :=
  fun s b c ph => congrArg Except.ok (lineAdvance_withLatches (s.setCol 0) b c ph)

theorem tabBody_ignoresLatches : ignoresLatches tabBody :=
  .ite (P := fun s => WIDTH ≤ (tabStop s.cursorCol).toNat) (fun _ _ _ _ => .rfl)
    newlineBody_ignoresLatches (fun _ _ _ _ => rfl)

theorem backspaceBody_ignoresLatches : ignoresLatches backspaceBody := by
  refine .ite (P := fun s => s.cursorRow = 0 ∧ s.cursorCol = 0) (fun _ _ _ _ => .rfl) (fun _ _ _ _ => rfl)
    (.ite (P := fun s => s.cursorCol ≠ 0) (fun _ _ _ _ => .rfl) (fun s b c ph => ?_) (fun s b c ph => ?_))
  · exact cellWrite_withLatches (s.setCol (s.cursorCol - 1)) _ _ _ b c ph
  · exact cellWrite_withLatches ((s.setRow (s.cursorRow - 1)).setCol _) _ _ _ b c ph

theorem plainBody_ignoresLatches (ch : Byte) : ignoresLatches (plainBody ch) := by
  have stored : ignoresLatches
      (fun s => s.cellWrite s.cursorCol.toNat s.cursorRow.toNat (cellval ch s.attr)) :=
    fun s b c ph => cellWrite_withLatches s _ _ _ b c ph
  exact stored.bind (.ite (P := fun t => t.cursorCol.toNat + 1 = WIDTH) (fun _ _ _ _ => .rfl)
    newlineBody_ignoresLatches (fun _ _ _ _ => rfl))

/-- The frame of PUTC around a body that ignores the latches. -/
theorem putc_ignoresLatches (ch : Byte) {body : State → Except Stop State} (hb : ignoresLatches body) :
    ignoresLatches (fun s => s.putc ch body) :=
  .ite (P := fun s => s.initDone = true) (fun _ _ _ _ => .rfl) (hb.bind cursorSync_ignoresLatches)
    (fun _ _ _ _ => rfl)

/-- A step whose computation ignores the latches has, with them replaced, the same outcome with them replaced. -/
theorem finish_withLatches {f : State → Except Stop State} (hf : ignoresLatches f) (s : State) (b c : Bool)
    (ph : Phase) :
    finish (s.withLatches b c ph) (f (s.withLatches b c ph))
      = mapNext (State.withLatches · b c ph) (finish s (f s)) := by
  rw [hf s b c ph]
  cases f s with
  | ok t => rfl
  | error e => cases e <;> rfl

/-- A display command with the latches and the phase replaced beforehand. -/
theorem exec_withLatches {i : Instr} (hi : i.isCommand = true) (s : State) (b c : Bool) (ph : Phase) :
    exec i (s.withLatches b c ph) = mapNext (State.withLatches · b c ph) (exec i s) := by
  cases i with
  | putcNl => exact finish_withLatches (putc_ignoresLatches NL newlineBody_ignoresLatches) s b c ph
  | putcTab => exact finish_withLatches (putc_ignoresLatches TAB tabBody_ignoresLatches) s b c ph
  | putcBs => exact finish_withLatches (putc_ignoresLatches BS backspaceBody_ignoresLatches) s b c ph
  | putcPlain ch => exact finish_withLatches (putc_ignoresLatches ch (plainBody_ignoresLatches ch)) s b c ph
  | setcolor fg bg => rfl
  | init =>
    have cleared : ignoresLatches (fun s => s.cleared.cursorSync) :=
      fun s => cursorSync_ignoresLatches s.cleared
    exact finish_withLatches cleared s b c ph
  | scShiftMake k => cases hi
  | scShiftBreak k => cases hi
  | scCapsMake => cases hi
  | scBreakOther key => cases hi
  | scKeyMake key => cases hi

/-- Settles O58: that nothing is read is `exec_withLatches`; that nothing is written is the same equation with
the latches and the phase replaced by their own values. -/
theorem displayCommandsIgnoreTheLatches : Obligations.DisplayCommandsIgnoreTheLatches := by
  intro i s shift caps ph hi
  refine ⟨exec_withLatches hi s shift caps ph, fun t ht => ?_⟩
  have own := exec_withLatches hi s s.shiftHeld s.capsLocked s.phase
  rw [show s.withLatches s.shiftHeld s.capsLocked s.phase = s from rfl, ht] at own
  injection own with own
  rw [own]
  exact ⟨rfl, rfl, rfl⟩

end Sys2Proof.Machine

/-! ### Proofs for the memory family (20_memory.md): every access of every step lies in the map of R59. -/

namespace Sys2Proof.Machine

/-! ## Runs of events in the map -/

theorem cellAddr_succ (p : Params) (i : Nat) : cellAddr p i + 2 = cellAddr p (i + 1) := by
  unfold cellAddr; omega

/-- One row further on in memory (R51). -/
theorem cellAddr_nextRow (p : Params) (i : Nat) : cellAddr p i + 2 * WIDTH = cellAddr p (WIDTH + i) := by
  unfold cellAddr; omega

/-- A run of stores that ends inside the framebuffer. -/
theorem memWriteEvents_inMap (p : Params) (vs : List Word) (i : Nat) (h : i + vs.length ≤ CELLS) :
    ∀ e ∈ memWriteEvents (cellAddr p i) vs, e.inMap p := by
  induction vs generalizing i with
  | nil => exact List.forall_mem_nil _
  | cons v vs ih =>
    rw [List.length_cons] at h
    rw [memWriteEvents, cellAddr_succ, List.forall_mem_cons]
    exact ⟨⟨i, by omega, rfl⟩, ih (i + 1) (by omega)⟩

/-- The copies of a scroll load one row below where they store, so never from row 0. -/
theorem scrollEvents_inMap (p : Params) (vs : List Word) (i : Nat) (h : WIDTH + i + vs.length ≤ CELLS) :
    ∀ e ∈ scrollEvents (cellAddr p i) vs, e.inMap p := by
  induction vs generalizing i with
  | nil => exact List.forall_mem_nil _
  | cons v vs ih =>
    rw [List.length_cons] at h
    rw [scrollEvents, cellAddr_succ, cellAddr_nextRow, List.forall_mem_cons, List.forall_mem_cons]
    exact ⟨⟨WIDTH + i, by omega, by omega, rfl⟩, ⟨i, by omega, rfl⟩, ih (i + 1) (by omega)⟩

/-- A CURSOR_SYNC selects each of the two cursor registers and writes its byte. -/
theorem syncEvents_inMap (p : Params) (off : Word) : ∀ e ∈ syncEvents p off, e.inMap p := by
  simp [syncEvents, Event.inMap]

/-! ## Shared operations -/

/-- `t` is reached from `s` by accesses of the map only: the events in between are appended to the list, each in
the map, and the parameters, with them the map, are kept. -/
def State.staysInMap (s t : State) : Prop :=
  t.params = s.params ∧ ∃ es, t.trace = s.trace ++ es ∧ ∀ e ∈ es, e.inMap s.params

/-- A change that emits nothing. -/
theorem State.staysInMap_of_quiet {s t : State} (hp : t.params = s.params) (ht : t.trace = s.trace) :
    s.staysInMap t :=
  ⟨hp, [], by rw [ht, List.append_nil], List.forall_mem_nil _⟩

theorem State.staysInMap.trans {s t u : State} (hst : s.staysInMap t) (htu : t.staysInMap u) :
    s.staysInMap u := by
  obtain ⟨hp, es, ht, hes⟩ := hst
  obtain ⟨hp', fs, ht', hfs⟩ := htu
  rw [hp] at hfs
  exact ⟨hp'.trans hp, es ++ fs, by rw [ht', ht, List.append_assoc], List.forall_mem_append.2 ⟨hes, hfs⟩⟩

theorem State.staysInMap_writeCells (s : State) (i : Nat) (vs : List Word) (h : i + vs.length ≤ CELLS) :
    s.staysInMap (s.writeCells i vs) :=
  ⟨rfl, _, rfl, memWriteEvents_inMap s.params vs i h⟩

/-- SCROLL copies rows 1 to 24 and blanks the last. -/
theorem State.staysInMap_scroll (s : State) : s.staysInMap s.scroll := by
  have copies := scrollEvents_inMap s.params (s.cells WIDTH (CELLS - WIDTH)) 0 (by
    rw [State.cells_length]; decide)
  have blanks := memWriteEvents_inMap s.params (List.replicate WIDTH (blank s.attr)) (CELLS - WIDTH) (by
    rw [List.length_replicate]; decide)
  exact ⟨rfl, _, s.scroll_trace, List.forall_mem_append.2 ⟨copies, blanks⟩⟩

/-- A CURSOR_SYNC, whatever the CRTC makes of it. -/
theorem State.staysInMap_sync (s : State) (k : Crtc) (off : Word) :
    s.staysInMap ((s.setCrtc k).emit (syncEvents s.params off)) :=
  ⟨rfl, _, rfl, syncEvents_inMap s.params off⟩

theorem State.staysInMap_kbdRead (s : State) (sc : Byte) : s.staysInMap (s.kbdRead sc) :=
  ⟨rfl, _, rfl, List.forall_mem_singleton.2 (.inr rfl)⟩

theorem State.staysInMap_kbdPoll (s : State) (v : Byte) : s.staysInMap (s.kbdPoll v) :=
  ⟨s.kbdPoll_params v, _, s.kbdPoll_trace v, List.forall_mem_singleton.2 (.inl rfl)⟩

/-! ## Every instruction -/

/-- Any PUTC body: its one store is of a cell of the framebuffer. -/
theorem State.putcShape_staysInMap {s t : State} (h : s.putcShape t) : s.staysInMap t := by
  obtain ⟨v, x, y, hv, ht, -⟩ := h
  have stored : s.staysInMap v := by
    rcases hv with rfl | ⟨i, w, hi, rfl⟩
    · exact State.staysInMap_of_quiet rfl rfl
    · exact s.staysInMap_writeCells i [w] hi
  rcases ht with rfl | rfl
  · exact stored.trans (State.staysInMap_of_quiet rfl rfl)
  · exact (stored.trans v.staysInMap_scroll).trans (State.staysInMap_of_quiet rfl rfl)

/-- A PUTC that completes: its body, then one CURSOR_SYNC. -/
theorem State.staysInMap_putc {s u : State} (hu : s.putcShape u) (k : Crtc) :
    s.staysInMap ((u.setCrtc k).emit (syncEvents u.params u.offset)) :=
  (State.putcShape_staysInMap hu).trans (u.staysInMap_sync k u.offset)

/-- INIT up to its CURSOR_SYNC: the stores are those of the whole framebuffer. -/
theorem State.staysInMap_cleared (s : State) : s.staysInMap s.cleared :=
  let t := s.setAttr s.params.defaultAttr
  have coloured : s.staysInMap t := State.staysInMap_of_quiet rfl rfl
  have stored : t.staysInMap (t.writeCells 0 (List.replicate CELLS (blank s.params.defaultAttr))) :=
    t.staysInMap_writeCells 0 _ (by rw [List.length_replicate, Nat.zero_add])
  (coloured.trans stored).trans (State.staysInMap_of_quiet rfl rfl)

theorem ExecCase.staysInMap {s t : State} {i : Instr} (h : ExecCase s i t) : s.staysInMap t := by
  cases h with
  | putcDone i c u k _ _ hu _ => exact State.staysInMap_putc hu k
  | init k _ => exact s.staysInMap_cleared.trans (s.cleared.staysInMap_sync k _)
  | keyDone key c u k _ _ hu _ => exact (s.staysInMap_kbdRead _).trans (State.staysInMap_putc hu k)
  | keyNone key _ => exact s.staysInMap_kbdRead _
  | breakOther key => exact s.staysInMap_kbdRead _
  | shiftMake k => exact (s.staysInMap_kbdRead _).trans (State.staysInMap_of_quiet rfl rfl)
  | shiftBreak k => exact (s.staysInMap_kbdRead _).trans (State.staysInMap_of_quiet rfl rfl)
  | capsMake => exact (s.staysInMap_kbdRead _).trans (State.staysInMap_of_quiet rfl rfl)
  | setcolor fg bg => exact State.staysInMap_of_quiet rfl rfl
  | putcRaised i c _ _ => exact State.staysInMap_of_quiet rfl rfl
  | keyRaised key c _ _ => exact State.staysInMap_of_quiet rfl rfl

/-! ## Every step -/

theorem step_staysInMap {s t : State} (h : step s = .next t) : s.staysInMap t := by
  obtain ⟨-, x, u, -, hu, hcase⟩ := step_case h
  have taken : s.staysInMap u := by rw [hu]; exact State.staysInMap_of_quiet rfl rfl
  refine taken.trans ?_
  rcases hcase with ⟨w, why, -, -, rfl⟩ | ⟨w, i, -, -, hi⟩ | ⟨v, -, -, rfl⟩ | ⟨v, -, -, hi⟩
  · exact State.staysInMap_of_quiet rfl rfl
  · exact (exec_case hi).staysInMap
  · exact u.staysInMap_kbdPoll v
  · exact (exec_case hi).staysInMap

/-- Settles O54: the relation `State.staysInMap` holds of every shared operation and composes, so it holds of
every instruction (by the inversion of `exec`) and of every step. -/
theorem everyAccessIsInTheMap : Obligations.EveryAccessIsInTheMap := by
  intro s t h
  obtain ⟨-, accesses⟩ := step_staysInMap h
  exact accesses

end Sys2Proof.Machine

/-! ### Proofs for the encoding family (30_encoding.md): what the decoders answer on the words the encoder builds,
the opcode table's rows, and what a step makes of each input. -/

namespace Sys2Proof

/-! ## Fields of a command word (R70) -/

theorem opField_toNat (w : Word) : (opField w).toNat = w.toNat / 16384 := by
  have := w.isLt
  simp only [opField, BitVec.extractLsb'_toNat, Nat.shiftRight_eq_div_pow]
  omega

theorem zField_toNat (w : Word) : (zField w).toNat = w.toNat / 256 % 64 := by
  simp [zField, BitVec.extractLsb'_toNat, Nat.shiftRight_eq_div_pow]

theorem argField_toNat (w : Word) : (argField w).toNat = w.toNat % 256 := by
  simp [argField, BitVec.extractLsb'_toNat]

theorem commandWord_toNat (op : BitVec 2) (arg : Byte) :
    (commandWord op arg).toNat = op.toNat * 16384 + arg.toNat := by
  have := arg.isLt
  simp only [commandWord, BitVec.toNat_append, BitVec.ofNat_eq_ofNat, BitVec.toNat_ofNat, Nat.zero_mod, Nat.or_zero]
  rw [← Nat.shiftLeft_add_eq_or_of_lt this, Nat.shiftLeft_eq, Nat.shiftLeft_eq]
  omega

@[simp] theorem opField_commandWord (op : BitVec 2) (arg : Byte) : opField (commandWord op arg) = op := by
  apply BitVec.eq_of_toNat_eq
  rw [opField_toNat, commandWord_toNat]; omega

@[simp] theorem zField_commandWord (op : BitVec 2) (arg : Byte) : zField (commandWord op arg) = 0 := by
  apply BitVec.eq_of_toNat_eq
  simp only [zField_toNat, commandWord_toNat, BitVec.ofNat_eq_ofNat, BitVec.toNat_ofNat]; omega

@[simp] theorem argField_commandWord (op : BitVec 2) (arg : Byte) : argField (commandWord op arg) = arg := by
  apply BitVec.eq_of_toNat_eq
  rw [argField_toNat, commandWord_toNat]; omega

/-- A word whose Z bits are 0 is the one its other two fields form. -/
theorem commandWord_fields {w : Word} (hz : zField w = 0) : commandWord (opField w) (argField w) = w := by
  have z := congrArg BitVec.toNat hz
  simp only [zField_toNat, BitVec.ofNat_eq_ofNat, BitVec.toNat_ofNat] at z
  apply BitVec.eq_of_toNat_eq
  rw [commandWord_toNat, opField_toNat, argField_toNat]
  omega

/-! ## Colours (R74) -/

@[simp] theorem fgField_attrByte (fg bg : Colour) : fgField (attrByte fg bg) = fg :=
  BitVec.extractLsb'_append_eq_right

@[simp] theorem bgField_attrByte (fg bg : Colour) : bgField (attrByte fg bg) = bg :=
  BitVec.extractLsb'_append_eq_left

/-- The two colours of a byte form it again: no bit is dropped. -/
@[simp] theorem attrByte_fields (a : Byte) : attrByte (fgField a) (bgField a) = a :=
  (BitVec.extractLsb'_append_extractLsb'_eq_extractLsb' rfl).trans BitVec.extractLsb'_eq_self

/-- `bg : fg` is `fg | (bg << 4)`. -/
theorem attrByte_eq_or (fg bg : Colour) :
    attrByte fg bg = fg.zeroExtend 8 ||| (bg.zeroExtend 8 <<< 4) := by
  rw [attrByte, BitVec.append_def, BitVec.shiftLeftZeroExtend_eq, BitVec.or_comm]
  rfl

/-! ## Decoding command words (R72, R73, R76) -/

theorem decodeCommand_putc (c : Byte) : decodeCommand (commandWord 0 c) = .instr (putcForm c) := by
  simp [decodeCommand]

theorem decodeCommand_setcolor (a : Byte) :
    decodeCommand (commandWord 1 a) = .instr (.setcolor (fgField a) (bgField a)) := by
  simp [decodeCommand]

theorem decodeCommand_init : decodeCommand (commandWord 2 0) = .instr .init := by
  simp [decodeCommand]

/-- The three cases of R73. -/
def reservedWord (w : Word) : Prop :=
  opField w = 3 ∨ zField w ≠ 0 ∨ (opField w = 2 ∧ argField w ≠ 0)

/-- A command word that is not reserved has OP 0, 1 or 2 with its Z bits 0, and no operand where OP is 2. -/
theorem commandWord_of_not_reserved {w : Word} (h : ¬reservedWord w) :
    (∃ c, w = commandWord 0 c) ∨ (∃ a, w = commandWord 1 a) ∨ w = commandWord 2 0 := by
  simp only [reservedWord, not_or, not_and, not_not] at h
  obtain ⟨hop, hz, harg⟩ := h
  have hw := (commandWord_fields hz).symm
  have hops : opField w = 0 ∨ opField w = 1 ∨ opField w = 2 := by bv_omega
  rcases hops with h0 | h1 | h2
  · exact .inl ⟨_, by rw [h0] at hw; exact hw⟩
  · exact .inr (.inl ⟨_, by rw [h1] at hw; exact hw⟩)
  · exact .inr (.inr (by rw [harg h2, h2] at hw; exact hw))

theorem decodeCommand_reserved {w : Word} (h : reservedWord w) : ∃ why, decodeCommand w = .reserved why := by
  unfold decodeCommand
  rcases h with hop | hz | ⟨hop, harg⟩
  · exact ⟨_, if_pos hop⟩
  · rw [if_pos hz]
    split <;> exact ⟨_, rfl⟩
  · rw [if_neg (by rw [hop]; decide), if_pos hop, if_neg harg]
    split <;> exact ⟨_, rfl⟩

theorem decodeCommand_of_not_reserved {w : Word} (h : ¬reservedWord w) : ∃ i, decodeCommand w = .instr i := by
  rcases commandWord_of_not_reserved h with ⟨c, rfl⟩ | ⟨a, rfl⟩ | rfl
  · exact ⟨_, decodeCommand_putc c⟩
  · exact ⟨_, decodeCommand_setcolor a⟩
  · exact ⟨_, decodeCommand_init⟩

/-- The inversion of `decodeCommand`: from an instruction, which word it was read from. -/
theorem decodeCommand_instr {w : Word} {i : Instr} (h : decodeCommand w = .instr i) :
    (∃ c, w = commandWord 0 c ∧ i = putcForm c)
      ∨ (∃ a, w = commandWord 1 a ∧ i = .setcolor (fgField a) (bgField a))
      ∨ (w = commandWord 2 0 ∧ i = .init) := by
  have hnot : ¬reservedWord w := fun hres => by
    obtain ⟨why, hwhy⟩ := decodeCommand_reserved hres
    rw [hwhy] at h; cases h
  rcases commandWord_of_not_reserved hnot with ⟨c, rfl⟩ | ⟨a, rfl⟩ | rfl
  · rw [decodeCommand_putc] at h; cases h; exact .inl ⟨c, rfl, rfl⟩
  · rw [decodeCommand_setcolor] at h; cases h; exact .inr (.inl ⟨a, rfl, rfl⟩)
  · rw [decodeCommand_init] at h; cases h; exact .inr (.inr ⟨rfl, rfl⟩)

/-! ## The PUTC forms (R72) -/

theorem wf_putcPlain_iff {c : Byte} : (Instr.putcPlain c).wf = true ↔ c ≠ NL ∧ c ≠ TAB ∧ c ≠ BS := by
  simp only [Instr.wf, Bool.and_eq_true, bne_iff_ne, and_assoc]

theorem putcForm_plain {c : Byte} (h : (Instr.putcPlain c).wf = true) : putcForm c = .putcPlain c := by
  obtain ⟨hnl, htab, hbs⟩ := wf_putcPlain_iff.1 h
  rw [putcForm, if_neg hnl, if_neg htab, if_neg hbs]

/-- The form a character selects carries the character, whichever of the four it is. -/
theorem putcForm_faithful (c : Byte) :
    (putcForm c).wf = true ∧ encode (putcForm c) = .command (commandWord 0 c)
      ∧ (putcForm c).putcChar = some c ∧ (putcForm c).isCommand = true := by
  unfold putcForm
  split
  · next h => subst h; exact ⟨rfl, rfl, rfl, rfl⟩
  · next hnl =>
    split
    · next h => subst h; exact ⟨rfl, rfl, rfl, rfl⟩
    · next htab =>
      split
      · next h => subst h; exact ⟨rfl, rfl, rfl, rfl⟩
      · next hbs => exact ⟨wf_putcPlain_iff.2 ⟨hnl, htab, hbs⟩, rfl, rfl, rfl⟩

/-- What is read from a command word is a well-formed CMD16 form that encodes to the word. -/
theorem decodeCommand_faithful {w : Word} {i : Instr} (h : decodeCommand w = .instr i) :
    i.wf = true ∧ encode i = .command w ∧ i.isCommand = true := by
  rcases decodeCommand_instr h with ⟨c, rfl, rfl⟩ | ⟨a, rfl, rfl⟩ | ⟨rfl, rfl⟩
  · obtain ⟨hwf, henc, -, hcmd⟩ := putcForm_faithful c
    exact ⟨hwf, henc, hcmd⟩
  · exact ⟨rfl, by rw [encode, attrByte_fields], rfl⟩
  · exact ⟨rfl, rfl, rfl⟩

/-! ## Scancodes (R77, R78) -/

theorem wf_scBreakOther_iff {key : Key} : (Instr.scBreakOther key).wf = true ↔ key ≠ 0x2A ∧ key ≠ 0x36 := by
  simp only [Instr.wf, Bool.and_eq_true, bne_iff_ne]

theorem wf_scKeyMake_iff {key : Key} :
    (Instr.scKeyMake key).wf = true ↔ key ≠ 0x2A ∧ key ≠ 0x36 ∧ key ≠ 0x3A := by
  simp only [Instr.wf, Bool.and_eq_true, bne_iff_ne, and_assoc]

theorem makeCode_toNat : ∀ key : Key, (makeCode key).toNat = key.toNat := by decide

theorem breakCode_toNat : ∀ key : Key, (breakCode key).toNat = 128 + key.toNat := by decide

theorem eq_makeCode {sc : Byte} (h : sc.toNat < 128) : sc = makeCode (BitVec.ofNat 7 sc.toNat) := by
  apply BitVec.eq_of_toNat_eq
  rw [makeCode_toNat, BitVec.toNat_ofNat]; omega

theorem eq_breakCode {sc : Byte} (h : 128 ≤ sc.toNat) : sc = breakCode (BitVec.ofNat 7 (sc.toNat - 128)) := by
  have := sc.isLt
  apply BitVec.eq_of_toNat_eq
  rw [breakCode_toNat, BitVec.toNat_ofNat]; omega

/-- R78 below 0x80: the shift and caps keys by name, every other key by number. -/
theorem decodeScancode_makeCode : ∀ key : Key, decodeScancode (makeCode key) =
    if key = 0x2A then .scShiftMake .left
    else if key = 0x36 then .scShiftMake .right
    else if key = 0x3A then .scCapsMake
    else .scKeyMake key := by decide

/-- R78 from 0x80 on: the shift keys by name, every other key by number. -/
theorem decodeScancode_breakCode : ∀ key : Key, decodeScancode (breakCode key) =
    if key = 0x2A then .scShiftBreak .left
    else if key = 0x36 then .scShiftBreak .right
    else .scBreakOther key := by decide

/-- What is read from a scancode is a well-formed SC8 form that encodes to the scancode. -/
theorem decodeScancode_faithful (sc : Byte) :
    (decodeScancode sc).wf = true ∧ encode (decodeScancode sc) = .keyboard sc
      ∧ (decodeScancode sc).isCommand = false := by
  rcases Nat.lt_or_ge sc.toNat 128 with h | h
  · rw [eq_makeCode h, decodeScancode_makeCode]
    generalize BitVec.ofNat 7 sc.toNat = key
    split
    · next h => subst h; exact ⟨rfl, rfl, rfl⟩
    · next hleft =>
      split
      · next h => subst h; exact ⟨rfl, rfl, rfl⟩
      · next hright =>
        split
        · next h => subst h; exact ⟨rfl, rfl, rfl⟩
        · next hcaps => exact ⟨wf_scKeyMake_iff.2 ⟨hleft, hright, hcaps⟩, rfl, rfl⟩
  · rw [eq_breakCode h, decodeScancode_breakCode]
    generalize BitVec.ofNat 7 (sc.toNat - 128) = key
    split
    · next h => subst h; exact ⟨rfl, rfl, rfl⟩
    · next hleft =>
      split
      · next h => subst h; exact ⟨rfl, rfl, rfl⟩
      · next hright => exact ⟨wf_scBreakOther_iff.2 ⟨hleft, hright⟩, rfl, rfl⟩

/-! ## Decode and encode agree -/

/-- Settles O1, form by form: a command word's fields are the operands it was built from, and the exclusions of
`Instr.wf` keep an operand from reading as a named form. -/
theorem decodeOfEncodeIsTheInstruction : Obligations.DecodeOfEncodeIsTheInstruction := by
  intro i hwf
  cases i with
  | putcNl => exact decodeCommand_putc NL
  | putcTab => exact decodeCommand_putc TAB
  | putcBs => exact decodeCommand_putc BS
  | putcPlain c => exact (decodeCommand_putc c).trans (by rw [putcForm_plain hwf])
  | setcolor fg bg => exact (decodeCommand_setcolor _).trans (by rw [fgField_attrByte, bgField_attrByte])
  | init => exact decodeCommand_init
  | scShiftMake k => cases k <;> rfl
  | scShiftBreak k => cases k <;> rfl
  | scCapsMake => rfl
  | scBreakOther key =>
    obtain ⟨hleft, hright⟩ := wf_scBreakOther_iff.1 hwf
    simp only [encode, decode, decodeScancode_breakCode, if_neg hleft, if_neg hright]
  | scKeyMake key =>
    obtain ⟨hleft, hright, hcaps⟩ := wf_scKeyMake_iff.1 hwf
    simp only [encode, decode, decodeScancode_makeCode, if_neg hleft, if_neg hright, if_neg hcaps]

/-- Settles O2, by the inversions of the two decoders. -/
theorem encodeOfDecodeIsTheInput : Obligations.EncodeOfDecodeIsTheInput := by
  intro x i h
  cases x with
  | command w =>
    obtain ⟨hwf, henc, -⟩ := decodeCommand_faithful h
    exact ⟨hwf, henc⟩
  | keyboard sc =>
    obtain ⟨hwf, henc, -⟩ := decodeScancode_faithful sc
    cases h
    exact ⟨hwf, henc⟩

/-! ## Decoding by value -/

/-- A word below 0x100 carries its character in OP 0. -/
theorem eq_commandWord_putc {w : Word} (h : w.toNat < 256) : w = commandWord 0 (BitVec.ofNat 8 w.toNat) := by
  apply BitVec.eq_of_toNat_eq
  simp only [commandWord_toNat, BitVec.ofNat_eq_ofNat, BitVec.toNat_ofNat]; omega

/-- Settles O3: below 0x100 by `eq_commandWord_putc`, in the SETCOLOR range by the two colours of the operand, and
elsewhere by the cases of R73. -/
theorem commandWordsDecodeByValue : Obligations.CommandWordsDecodeByValue := by
  intro w
  have word {v : Word} (h : w.toNat = v.toNat) : w = v := BitVec.eq_of_toNat_eq h
  refine ⟨fun h => ?_, fun h => ?_, fun h => ?_, fun h hnl htab hbs => ?_, fun hlo hhi => ?_, fun h => ?_,
    fun hlo hrange hinit => decodeCommand_reserved ?_⟩
  · rw [word (v := commandWord 0 NL) h]; exact decodeCommand_putc NL
  · rw [word (v := commandWord 0 TAB) h]; exact decodeCommand_putc TAB
  · rw [word (v := commandWord 0 BS) h]; exact decodeCommand_putc BS
  · have plain : (Instr.putcPlain (BitVec.ofNat 8 w.toNat)).wf = true := by
      simp only [wf_putcPlain_iff, NL, TAB, BS]
      exact ⟨by bv_omega, by bv_omega, by bv_omega⟩
    rw [← putcForm_plain plain, ← decodeCommand_putc, ← eq_commandWord_putc h]
  · have hw : w = commandWord 1 (argField w) := word (by
      simp only [commandWord_toNat, argField_toNat, BitVec.ofNat_eq_ofNat, BitVec.toNat_ofNat]; omega)
    have hfg : fgField (argField w) = BitVec.ofNat 4 (w.toNat % 16) := by
      apply BitVec.eq_of_toNat_eq
      simp only [fgField, BitVec.extractLsb'_toNat, argField_toNat, BitVec.toNat_ofNat, Nat.shiftRight_zero]
      omega
    have hbg : bgField (argField w) = BitVec.ofNat 4 (w.toNat / 16 % 16) := by
      apply BitVec.eq_of_toNat_eq
      simp only [bgField, BitVec.extractLsb'_toNat, argField_toNat, BitVec.toNat_ofNat,
        Nat.shiftRight_eq_div_pow]
      omega
    rw [← hfg, ← hbg, ← decodeCommand_setcolor, ← hw]
  · rw [word (v := commandWord 2 0) h]; exact decodeCommand_init
  · have hlt := w.isLt
    simp only [reservedWord, ne_eq, ← BitVec.toNat_inj, opField_toNat, zField_toNat, argField_toNat,
      BitVec.ofNat_eq_ofNat, BitVec.toNat_ofNat]
    omega

/-- Settles O4: the named codes by their values, the others by the equations for make and break codes. -/
theorem scancodesClassifyByValue : Obligations.ScancodesClassifyByValue := by
  intro sc
  have code {v : Byte} (h : sc.toNat = v.toNat) : decodeScancode sc = decodeScancode v := by
    rw [BitVec.eq_of_toNat_eq h]
  refine ⟨code (v := LSHIFT_MAKE), code (v := RSHIFT_MAKE), code (v := LSHIFT_BREAK), code (v := RSHIFT_BREAK),
    code (v := CAPS_MAKE), fun h hleft hright => ?_, fun h hleft hright hcaps => ?_⟩
  · have hlt := sc.isLt
    rw [eq_breakCode h, decodeScancode_breakCode, if_neg (by bv_omega), if_neg (by bv_omega), ← eq_breakCode h]
  · rw [eq_makeCode h, decodeScancode_makeCode, if_neg (by bv_omega), if_neg (by bv_omega),
      if_neg (by bv_omega), ← eq_makeCode h]

/-- Settles O6: each word and scancode is written out and evaluated. -/
theorem vectorWordsDecode : Obligations.VectorWordsDecode :=
  ⟨rfl, rfl, rfl, rfl, rfl, rfl, rfl, rfl, rfl, rfl⟩

/-- Settles O7: the word is the one that carries the operand byte under OP 1. -/
theorem setcolorOperandsFormTheAttribute : Obligations.SetcolorOperandsFormTheAttribute :=
  fun a => ⟨decodeCommand_setcolor a, attrByte_fields a,
    (attrByte_eq_or (fgField a) (bgField a)).symm.trans (attrByte_fields a)⟩

/-! ## The opcode table's rows -/

theorem Row.admits_iff {r : Row} {x : Input} :
    r.admits x = true ↔ x.isScancode = r.scancode ∧ x.bits &&& r.mask ∈ r.codes ∧ x.bits ∉ r.exclude := by
  simp [Row.admits, and_assoc]

/-- The rows' mask 0xFF00 keeps the high byte of a word. -/
theorem eq_append_of_and_mask {w : Word} {high : Byte} (h : w &&& 0xFF00 = high ++ (0 : Byte)) :
    w = high ++ argField w := by
  have hw : w = (w.extractLsb' 8 8 : Byte) ++ argField w :=
    (Machine.cellval_bytes w).symm
  have hhigh : (w.extractLsb' 8 8 : Byte) ++ (0 : Byte) = high ++ (0 : Byte) := by
    rw [← h]
    conv_rhs => rw [hw, show (0xFF00 : Word) = (BitVec.allOnes 8) ++ (0 : Byte) from rfl, BitVec.and_append,
      BitVec.and_allOnes, show argField w &&& 0 = 0 from BitVec.and_zero]
  rw [← (BitVec.append_left_inj (0 : Byte)).1 hhigh]
  exact hw

/-- A command word that a row admits decodes to an instruction of that row. -/
theorem decodeCommand_of_admits {j : Instr} {w : Word} (h : (opcodeRow j).admits (.command w) = true) :
    ∃ i, decodeCommand w = .instr i ∧ opcodeRow i = opcodeRow j := by
  obtain ⟨hformat, hcode, hexcl⟩ := Row.admits_iff.1 h
  have whole : w &&& 0xFFFF = w := BitVec.and_allOnes
  cases j with
  | putcNl =>
    have hw : w = commandWord 0 NL := by rw [← whole]; exact List.mem_singleton.1 hcode
    exact ⟨.putcNl, by rw [hw]; exact decodeCommand_putc NL, rfl⟩
  | putcTab =>
    have hw : w = commandWord 0 TAB := by rw [← whole]; exact List.mem_singleton.1 hcode
    exact ⟨.putcTab, by rw [hw]; exact decodeCommand_putc TAB, rfl⟩
  | putcBs =>
    have hw : w = commandWord 0 BS := by rw [← whole]; exact List.mem_singleton.1 hcode
    exact ⟨.putcBs, by rw [hw]; exact decodeCommand_putc BS, rfl⟩
  | putcPlain c =>
    have hw : w = commandWord 0 (argField w) := eq_append_of_and_mask (high := 0) (List.mem_singleton.1 hcode)
    have plain : (Instr.putcPlain (argField w)).wf = true := by
      simp only [opcodeRow, Input.bits, List.mem_cons, List.not_mem_nil, or_false, not_or] at hexcl
      obtain ⟨hbs, htab, hnl⟩ := hexcl
      exact wf_putcPlain_iff.2 ⟨fun e => hnl (by rw [hw, e]; rfl), fun e => htab (by rw [hw, e]; rfl),
        fun e => hbs (by rw [hw, e]; rfl)⟩
    exact ⟨.putcPlain (argField w), by rw [hw, decodeCommand_putc, ← hw, putcForm_plain plain], rfl⟩
  | setcolor fg bg =>
    have hw : w = commandWord 1 (argField w) :=
      eq_append_of_and_mask (high := 0x40) (List.mem_singleton.1 hcode)
    exact ⟨_, (congrArg decodeCommand hw).trans (decodeCommand_setcolor (argField w)), rfl⟩
  | init =>
    have hw : w = commandWord 2 0 := by rw [← whole]; exact List.mem_singleton.1 hcode
    exact ⟨.init, by rw [hw]; exact decodeCommand_init, rfl⟩
  | scShiftMake k => cases hformat
  | scShiftBreak k => cases hformat
  | scCapsMake => cases hformat
  | scBreakOther key => cases hformat
  | scKeyMake key => cases hformat

/-- A scancode that a row admits decodes to an instruction of that row. A row does not depend on its
instruction's operand, so one operand stands for all. -/
theorem decodeScancode_of_admits {j : Instr} {sc : Byte} (h : (opcodeRow j).admits (.keyboard sc) = true) :
    opcodeRow (decodeScancode sc) = opcodeRow j := by
  obtain ⟨hformat, -⟩ := Row.admits_iff.1 h
  have rows : ∀ k ∈ [Instr.scShiftMake .left, .scShiftBreak .left, .scCapsMake, .scBreakOther 0, .scKeyMake 0],
      ∀ sc, (opcodeRow k).admits (.keyboard sc) = true → opcodeRow (decodeScancode sc) = opcodeRow k := by
    decide
  cases j with
  | putcNl => cases hformat
  | putcTab => cases hformat
  | putcBs => cases hformat
  | putcPlain c => cases hformat
  | setcolor fg bg => cases hformat
  | init => cases hformat
  | scShiftMake k => exact rows (.scShiftMake .left) (by decide) sc h
  | scShiftBreak k => exact rows (.scShiftBreak .left) (by decide) sc h
  | scCapsMake => exact rows .scCapsMake (by decide) sc h
  | scBreakOther key => exact rows (.scBreakOther 0) (by decide) sc h
  | scKeyMake key => exact rows (.scKeyMake 0) (by decide) sc h

theorem decode_of_admits {j : Instr} {x : Input} (h : (opcodeRow j).admits x = true) :
    ∃ i, decode x = .instr i ∧ opcodeRow i = opcodeRow j := by
  cases x with
  | command w => exact decodeCommand_of_admits h
  | keyboard sc => exact ⟨_, rfl, decodeScancode_of_admits h⟩

/-- A well-formed instruction's encoding is admitted by its row, for every form at once. -/
theorem matchesRow : ∀ i : Instr, Laws.MatchesRow.Statement i
  | .putcNl => Laws.MatchesRow.putcNl
  | .putcTab => Laws.MatchesRow.putcTab
  | .putcBs => Laws.MatchesRow.putcBs
  | .putcPlain c => Laws.MatchesRow.putcPlain c
  | .setcolor fg bg => Laws.MatchesRow.setcolor fg bg
  | .init => Laws.MatchesRow.init
  | .scShiftMake k => Laws.MatchesRow.scShiftMake k
  | .scShiftBreak k => Laws.MatchesRow.scShiftBreak k
  | .scCapsMake => Laws.MatchesRow.scCapsMake
  | .scBreakOther key => Laws.MatchesRow.scBreakOther key
  | .scKeyMake key => Laws.MatchesRow.scKeyMake key

/-- Settles O5: the decoded instruction's row admits the input because the input is its encoding, and a row that
admits the input is the row of what the input decodes to. -/
theorem exactlyOneOpcodeRowAdmitsAnInput : Obligations.ExactlyOneOpcodeRowAdmitsAnInput := by
  intro x i h
  obtain ⟨hwf, henc⟩ := encodeOfDecodeIsTheInput x i h
  refine ⟨by rw [← henc]; exact matchesRow i hwf, fun j hj => ?_⟩
  obtain ⟨k, hk, hrow⟩ := decode_of_admits hj
  rw [h] at hk
  cases hk
  exact hrow.symm

end Sys2Proof

namespace Sys2Proof.Machine

/-! ## Steps and runs of steps -/

theorem hostStep_reserved {w : Word} {why : ReservedReason} (h : decodeCommand w = .reserved why) (s : State) :
    hostStep w s = .next (s.raise (.reservedCommand w)) := by
  unfold hostStep; rw [h]

theorem keyboardStep_poll {s : State} (h : s.phase = .poll) (v : Byte) :
    keyboardStep v s = .next (s.kbdPoll v) := by
  unfold keyboardStep; rw [h]

theorem keyboardStep_read {s : State} (h : s.phase = .read) (v : Byte) :
    keyboardStep v s = exec (decodeScancode v) s := by
  unfold keyboardStep; rw [h]

/-- `s` with other inputs lined up (entry 6). -/
def State.withInputs (s : State) (xs : List Input) : State := { s with inputs := xs }

theorem State.withInputs_self {s : State} {xs : List Input} (h : s.inputs = xs) : s.withInputs xs = s := by
  subst h; rfl

/-- The equation of a host step. -/
theorem step_command {s : State} {w : Word} {rest : List Input} (hrun : s.running)
    (hin : s.inputs = .command w :: rest) : step s = hostStep w (s.withInputs rest) := by
  rw [step_running hrun, s.takeInput_cons hin]; rfl

/-- The equation of a keyboard step. -/
theorem step_keyboard {s : State} {v : Byte} {rest : List Input} (hrun : s.running)
    (hin : s.inputs = .keyboard v :: rest) : step s = keyboardStep v (s.withInputs rest) := by
  rw [step_running hrun, s.takeInput_cons hin]; rfl

/-- The step of a block that polls. -/
theorem step_poll {s : State} {v : Byte} {rest : List Input} (hrun : s.running) (hphase : s.phase = .poll)
    (hin : s.inputs = .keyboard v :: rest) : step s = .next ((s.withInputs rest).kbdPoll v) :=
  (step_keyboard hrun hin).trans (keyboardStep_poll (s := s.withInputs rest) hphase v)

/-- The step of a block that reads a scancode. -/
theorem step_read {s : State} {sc : Byte} {rest : List Input} (hrun : s.running) (hphase : s.phase = .read)
    (hin : s.inputs = .keyboard sc :: rest) : step s = exec (decodeScancode sc) (s.withInputs rest) :=
  (step_keyboard hrun hin).trans (keyboardStep_read (s := s.withInputs rest) hphase sc)

/-- A run's first step, when it has a next state. -/
theorem run_succ {M : Host.Core} {s t : M.State} (h : M.step s = .next t) (k : Nat) :
    M.run (k + 1) s = M.run k t := by
  rw [Host.Core.run, h]

/-- A run of one step is the step. -/
theorem run_one (M : Host.Core) (s : M.State) : M.run 1 s = M.step s := by
  rw [Host.Core.run]
  cases M.step s <;> rfl

/-- Settles O11: the three conditions are those under which the decoder answers no instruction. -/
theorem reservedWordsRaiseTheirFault : Obligations.ReservedWordsRaiseTheirFault := by
  intro s w rest hrun hin
  refine ⟨fun hres => ?_, fun hnot => ?_⟩
  · obtain ⟨why, hwhy⟩ := decodeCommand_reserved hres
    rw [step_command hrun hin, hostStep_reserved hwhy]
    rfl
  · obtain ⟨i, hi⟩ := decodeCommand_of_not_reserved hnot
    obtain ⟨-, henc, hcmd⟩ := decodeCommand_faithful hi
    exact ⟨i, hi, hcmd, henc⟩

theorem decodeTableWord_some {nbits w : Nat} {i : Instr} (h : decodeTableWord nbits w = some i) :
    ∃ x, tableInput nbits w = some x ∧ decode x = .instr i := by
  unfold decodeTableWord at h
  split at h
  · next x hx =>
    refine ⟨x, hx, ?_⟩
    cases hd : decode x with
    | instr k => rw [hd] at h; cases h; rfl
    | reserved why => rw [hd] at h; cases h
  · cases h

/-- The number of bits tells the format (entry 16). -/
theorem tableInput_isScancode {nbits w : Nat} {x : Input} (h : tableInput nbits w = some x) :
    x.isScancode = true ↔ nbits ≤ 8 := by
  unfold tableInput at h
  split at h
  · next h8 => cases h; exact ⟨fun _ => h8, fun _ => rfl⟩
  · next h8 =>
    split at h
    · cases h; exact ⟨nofun, fun hle => absurd hle h8⟩
    · cases h

/-- Settles O15: the placed input is the next one taken, and a placed scancode finds phase READ. -/
theorem fetchWordIsRunNext : Obligations.FetchWordIsRunNext := by
  intro s nbits w i hrun hdec
  obtain ⟨x, hx, hi⟩ := decodeTableWord_some hdec
  have format := tableInput_isScancode hx
  rw [show s.withFetchWord nbits w = s.lineUp x by unfold State.withFetchWord; rw [hx]]
  cases x with
  | command v =>
    rw [if_neg (fun h8 => Bool.false_ne_true (format.2 h8))]
    exact (step_command (s := s.lineUp (.command v)) hrun rfl).trans (hostStep_instr hi _)
  | keyboard sc =>
    rw [if_pos (format.1 rfl)]
    cases hi
    exact step_read (s := s.lineUp (.keyboard sc)) hrun rfl rfl

/-! ## Polls (R130) -/

/-- A status answer with the ready bit set: the next keyboard step reads the data port. -/
theorem kbdPoll_ready {s : State} {v : Byte} (h : v &&& s.params.kbdReadyMask ≠ 0) :
    s.kbdPoll v
      = { s with phase := .read, trace := s.trace ++ [.portIn s.params.kbdStatusPort v] } := by
  unfold State.kbdPoll
  exact if_pos (bne_iff_ne.2 h)

/-- A status answer of 0 is never ready: the read is all there is. -/
theorem kbdPoll_zero (s : State) :
    s.kbdPoll 0 = { s with trace := s.trace ++ [.portIn s.params.kbdStatusPort 0] } := by
  unfold State.kbdPoll
  exact if_neg (by simp [statusReady])

/-- Settles O16: the mask itself is a ready answer, since it has a bit set, so the second step reads the
scancode. -/
theorem keyLineIsAPollAndARead : Obligations.KeyLineIsAPollAndARead := by
  intro s sc rest hrun hphase hin
  obtain ⟨-, -, -, -, -, -, -, -, ⟨hbit, -⟩, -⟩ := params_wf_iff.1 hrun.2
  have ready : s.params.kbdReadyMask &&& s.params.kbdReadyMask ≠ 0 := by rwa [BitVec.and_self]
  have poll := (step_poll hrun hphase hin).trans
    (congrArg Host.Outcome.next (kbdPoll_ready (s := s.withInputs _) ready))
  exact (run_succ (M := core) poll 1).trans ((run_one core _).trans (step_read (by exact hrun) rfl rfl))

/-- Settles O17, by induction on the number of polls: one more poll in front is one more event in front. -/
theorem idlePollsForAnyLength : Obligations.IdlePollsForAnyLength := by
  intro n
  induction n with
  | zero =>
    intro s rest _ _ hin
    have hrest : s.inputs = rest := hin
    subst hrest
    simp only [List.replicate_zero, List.append_nil]
    rfl
  | succ n ih =>
    intro s rest hrun hphase hin
    have poll := (step_poll hrun hphase hin).trans (congrArg Host.Outcome.next (kbdPoll_zero (s.withInputs _)))
    have polls := (run_succ (M := core) poll n).trans (ih _ rest hrun hphase rfl)
    rw [List.replicate_succ, ← List.singleton_append, ← List.append_assoc]
    exact polls

/-! ## A coloured character (R74, R112) -/

/-- The PUTC that completes: its body's state, synced. -/
theorem finish_putc_eq {before s u : State} {c : Byte} {body : State → Except Stop State}
    (hp : s.params.wf = true) (hi : s.initDone = true) (hb : body s = .ok u) (hs : s.putcShape u) :
    finish before (s.putc c body)
      = .next ((u.setCrtc (syncedCrtc u.params u.offset)).emit (syncEvents u.params u.offset)) := by
  obtain ⟨-, -, -, -, -, -, -, hparams, -⟩ := State.putcShape_frame hs
  rw [s.putc_eq u c body hi hb (by rw [hparams, hp]), finish_ok]

/-- The index at which the cell of a plain character is found afterwards: under the old cursor, or, in the last
cell, one row up, where the scroll moves it. -/
def State.landing (s : State) : Nat :=
  if s.cursorCol.toNat = 79 ∧ s.cursorRow.toNat = 24 then cellIndex 79 23
  else cellIndex s.cursorCol.toNat s.cursorRow.toNat

/-- A plain character's body leaves its cell, whether the cursor stays in its row, wraps, or scrolls. -/
theorem plainBody_landing {s : State} (c : Byte) (hc : s.cursorCol.toNat < 80) (hr : s.cursorRow.toNat < 25)
    (hm : s.cursorCol.toNat = 79 → s.cursorRow.toNat = 24 → s.mem.wf) :
    ∃ u, plainBody c s = .ok u ∧ u.cell s.landing = cellval c s.attr := by
  unfold State.landing
  by_cases hcol : s.cursorCol.toNat < 79
  · rw [if_neg (by omega)]
    exact ⟨_, plainBody_inside s c hcol hr, s.writeCells_cell_self _ _⟩
  · have hcol : s.cursorCol.toNat = 79 := by omega
    rw [plainBody_wrap s c hcol hr, hcol]
    by_cases hrow : s.cursorRow.toNat < 24
    · rw [if_neg (by omega)]
      exact ⟨_, newlineBody_down _ hrow, s.writeCells_cell_self _ _⟩
    · have hrow : s.cursorRow.toNat = 24 := by omega
      rw [if_pos ⟨rfl, hrow⟩, hrow]
      let stored := s.writeCells (cellIndex 79 24) [cellval c s.attr]
      have moved : (stored.setCol 0).scroll.cell (cellIndex 79 23) = stored.cell (cellIndex 79 24) :=
        ((stored.setCol 0).scroll_stored (s.writeCells_wf (hm hcol hrow) _ _) _ (by decide)).trans
          (if_pos (by decide))
      exact ⟨_, newlineBody_scroll stored hrow, moved.trans (s.writeCells_cell_self _ _)⟩

/-- Settles O20: SETCOLOR's colours are what the plain character's cell then carries. -/
theorem setcolorThenPlainColoursTheCell : Obligations.SetcolorThenPlainColoursTheCell := by
  intro s fg bg c hp hi hc hr hm
  obtain ⟨u, hbody, hcell⟩ := plainBody_landing (s := s.setAttr (attrByte fg bg)) c hc hr hm
  have plain : exec (.putcPlain c) (s.setAttr (attrByte fg bg)) = _ :=
    finish_putc_eq hp hi hbody (plainBody_shape hbody)
  refine ⟨_, _, rfl, plain, ?_, ?_⟩
  · rw [← attrByte_eq_or, ← cellAttr_cellval c (attrByte fg bg)]
    exact congrArg cellAttr hcell
  · rw [← cellChar_cellval c (attrByte fg bg)]
    exact congrArg cellChar hcell

/-! ## WRITE (R82, R113): what is lined up plays no part in a PUTC -/

theorem lineAdvance_withInputs (s : State) (xs : List Input) :
    (s.withInputs xs).lineAdvance = s.lineAdvance.withInputs xs := by
  by_cases h : s.cursorRow.toNat + 1 = HEIGHT
  · rw [s.lineAdvance_of_last h, State.lineAdvance_of_last (s.withInputs xs) h]; rfl
  · rw [s.lineAdvance_of_ne h, State.lineAdvance_of_ne (s.withInputs xs) h]; rfl

theorem newlineBody_withInputs (s : State) (xs : List Input) :
    newlineBody (s.withInputs xs) = (newlineBody s).map (State.withInputs · xs) :=
  congrArg Except.ok (lineAdvance_withInputs (s.setCol 0) xs)

theorem tabBody_withInputs (s : State) (xs : List Input) :
    tabBody (s.withInputs xs) = (tabBody s).map (State.withInputs · xs) := by
  by_cases h : s.cursorCol.toNat < 76
  · rw [tabBody_inside s h, tabBody_inside (s.withInputs xs) h]; rfl
  · rw [tabBody_overflow s (by omega), tabBody_overflow (s.withInputs xs) (by exact Nat.le_of_not_lt h)]
    exact newlineBody_withInputs s xs

theorem backspaceBody_withInputs {s : State} (h : s.cursorInRange) (xs : List Input) :
    backspaceBody (s.withInputs xs) = (backspaceBody s).map (State.withInputs · xs) := by
  obtain ⟨hcol, hrow⟩ := h
  by_cases hc : s.cursorCol = 0
  · by_cases hr : s.cursorRow = 0
    · rw [backspaceBody_origin s hc hr, backspaceBody_origin (s.withInputs xs) hc hr]; rfl
    · have h0 : 0 < s.cursorRow.toNat := by bv_omega
      rw [backspaceBody_previous s hc h0 hrow, backspaceBody_previous (s.withInputs xs) hc h0 hrow]; rfl
  · have h0 : 0 < s.cursorCol.toNat := by bv_omega
    rw [backspaceBody_left s h0 hcol hrow, backspaceBody_left (s.withInputs xs) h0 hcol hrow]; rfl

theorem plainBody_withInputs {s : State} (h : s.cursorInRange) (c : Byte) (xs : List Input) :
    plainBody c (s.withInputs xs) = (plainBody c s).map (State.withInputs · xs) := by
  obtain ⟨hcol, hrow⟩ := h
  by_cases hc : s.cursorCol.toNat < 79
  · rw [plainBody_inside s c hc hrow, plainBody_inside (s.withInputs xs) c hc hrow]; rfl
  · have hc : s.cursorCol.toNat = 79 := by simp only [WIDTH] at hcol; omega
    rw [plainBody_wrap s c hc hrow, plainBody_wrap (s.withInputs xs) c hc hrow]
    exact newlineBody_withInputs (s.writeCells (cellIndex 79 s.cursorRow.toNat) [cellval c s.attr]) xs

theorem putcBody_withInputs {s : State} (h : s.cursorInRange) (c : Byte) (xs : List Input) :
    putcBody c (s.withInputs xs) = (putcBody c s).map (State.withInputs · xs) := by
  unfold putcBody
  split
  · exact newlineBody_withInputs s xs
  · split
    · exact tabBody_withInputs s xs
    · split
      · exact backspaceBody_withInputs h xs
      · exact plainBody_withInputs h c xs

/-- A block that a PUTC completes on. -/
structure State.ready (s : State) : Prop where
  running : s.running
  inRange : s.cursorInRange
  initialised : s.initDone = true

/-- A PUTC form of a ready block completes, the same whatever is lined up, and leaves the block ready. -/
theorem exec_putcForm_ready {s : State} (h : s.ready) (c : Byte) :
    ∃ t : State, t.ready ∧ ∀ xs, exec (putcForm c) (s.withInputs xs) = .next (t.withInputs xs) := by
  obtain ⟨⟨hf, hp⟩, hc, hi⟩ := h
  obtain ⟨u, hu⟩ := putcBody_ok c hc
  have shape := putcBody_shape hu
  obtain ⟨-, hinit, -, -, -, hfault, -, hparams, -⟩ := State.putcShape_frame shape
  have inRange : u.cursorInRange := State.putcShape_cursorInRange shape hc
  refine ⟨(u.setCrtc (syncedCrtc u.params u.offset)).emit (syncEvents u.params u.offset),
    ⟨⟨hfault.trans hf, (congrArg Params.wf hparams).trans hp⟩, inRange, hinit.trans hi⟩, fun xs => ?_⟩
  have hbody : putcBody c (s.withInputs xs) = .ok (u.withInputs xs) := by
    rw [putcBody_withInputs hc, hu]; rfl
  rw [exec_putcForm]
  exact finish_putc_eq (s := s.withInputs xs) hp hi hbody (putcBody_shape hbody)

/-- The PUTC words of a ready block, one a step, and their forms in order end in the same ready state. -/
theorem run_writeInputs {s : State} (h : s.ready) (bs : List Byte) (rest : List Input) :
    ∃ t : State, t.ready
      ∧ core.run bs.length (s.withInputs (writeInputs bs ++ rest)) = .next (t.withInputs rest)
      ∧ execAll (bs.map putcForm) (s.withInputs rest) = .next (t.withInputs rest) := by
  induction bs generalizing s with
  | nil => exact ⟨s, h, rfl, rfl⟩
  | cons b bs ih =>
    obtain ⟨u, hu, hexec⟩ := exec_putcForm_ready h b
    obtain ⟨t, ht, hrun, hall⟩ := ih hu
    have first : step (s.withInputs (writeInputs (b :: bs) ++ rest))
        = .next (u.withInputs (writeInputs bs ++ rest)) :=
      (step_command (s := s.withInputs (writeInputs (b :: bs) ++ rest)) h.running rfl).trans
        ((hostStep_instr (decodeCommand_putc b) _).trans (hexec _))
    refine ⟨t, ht, (run_succ (M := core) first bs.length).trans hrun, ?_⟩
    rw [List.map_cons, execAll, hexec rest]
    exact (if_pos hu.running.1).trans hall

/-- Settles O48: `run_writeInputs` on the state as it is, whose inputs are those of the line. -/
theorem writeIsPutcOfEachByte : Obligations.WriteIsPutcOfEachByte := by
  intro bs s rest hrun hc hi hin
  obtain ⟨t, ht, hsteps, hall⟩ := run_writeInputs ⟨hrun, hc, hi⟩ bs rest
  rw [State.withInputs_self (xs := writeInputs bs ++ rest) hin] at hsteps
  exact ⟨t.withInputs rest, hsteps, hall, ht.running.1⟩

/-! ## Faults (R73, R106, R140, R161) -/

/-- The character an instruction hands to PUTC: its own, or the one its key's lookup gives (R140). -/
def State.handed (s : State) : Instr → Option Byte
  | .scKeyMake key => decodeKey s.params key s.shifted
  | i => i.putcChar

theorem State.handed_of_putcChar {i : Instr} {c : Byte} (h : i.putcChar = some c) (s : State) :
    s.handed i = some c := by
  cases i with
  | scKeyMake key => cases h
  | _ => exact h

theorem State.handed_command {i : Instr} (h : i.isCommand = true) (s : State) : s.handed i = i.putcChar := by
  cases i with
  | scKeyMake key => cases h
  | _ => rfl

/-- Of the scancode classes only KEY_MAKE hands a character on. -/
theorem State.handed_scancode {i : Instr} (h : i.isCommand = false) {s : State} {c : Byte} :
    s.handed i = some c ↔ ∃ key, i = .scKeyMake key ∧ decodeKey s.params key s.shifted = some c := by
  cases i with
  | scKeyMake key => exact ⟨fun hk => ⟨key, rfl, hk⟩, fun ⟨_, hk, hc⟩ => by cases hk; exact hc⟩
  | scShiftMake k => exact ⟨nofun, nofun⟩
  | scShiftBreak k => exact ⟨nofun, nofun⟩
  | scCapsMake => exact ⟨nofun, nofun⟩
  | scBreakOther key => exact ⟨nofun, nofun⟩
  | _ => cases h

/-- The fault an instruction raises: handing a character on before INIT (R106). -/
def State.raisedBy (s : State) (i : Instr) : Option Cause :=
  if s.initDone then none else (s.handed i).map .notInitialized

/-- The fault the step that takes an input raises. -/
def State.raisedOn (s : State) : Input → Option Cause
  | .command w =>
    match decodeCommand w with
    | .instr i => s.raisedBy i
    | .reserved _ => some (.reservedCommand w)
  | .keyboard v =>
    match s.phase with
    | .poll => none
    | .read => s.raisedBy (decodeScancode v)

theorem State.raisedBy_iff {s : State} {i : Instr} {e : Cause} :
    s.raisedBy i = some e ↔ s.initDone = false ∧ ∃ c, s.handed i = some c ∧ .notInitialized c = e := by
  unfold State.raisedBy
  cases s.initDone <;> simp

/-- An instruction of a block without a fault leaves in `fault` what it raises. -/
theorem ExecCase.fault_eq {s t : State} {i : Instr} (h : ExecCase s i t) (hs : s.fault = none) :
    t.fault = s.raisedBy i := by
  have raised {c : Byte} (hi : s.initDone = false) (hc : s.handed i = some c) :
      (s.raise (.notInitialized c)).fault = s.raisedBy i :=
    (State.raisedBy_iff.2 ⟨hi, c, hc, rfl⟩).symm
  have initialised (hi : s.initDone = true) : none = s.raisedBy i := (if_pos hi).symm
  have nothing (hn : s.handed i = none) : none = s.raisedBy i := by simp [State.raisedBy, hn]
  cases h with
  | putcRaised i c hc hi => exact raised hi (s.handed_of_putcChar hc)
  | keyRaised key c hc hi => exact raised hi hc
  | putcDone i c u k _ hi hu _ =>
    obtain ⟨-, -, -, -, -, hfault, -⟩ := State.putcShape_frame hu
    exact (hfault.trans hs).trans (initialised hi)
  | keyDone key c u k _ hi hu _ =>
    obtain ⟨-, -, -, -, -, hfault, -⟩ := State.putcShape_frame hu
    exact (hfault.trans hs).trans (initialised hi)
  | keyNone key hn => exact hs.trans (nothing hn)
  | _ => exact hs.trans (nothing rfl)

/-- A step leaves in `fault` what its input raises. -/
theorem step_fault_eq {s t : State} {x : Input} {rest : List Input} (hin : s.inputs = x :: rest)
    (h : step s = .next t) : t.fault = s.raisedOn x := by
  obtain ⟨⟨hf, -⟩, y, u, htake, -, hcase⟩ := step_case h
  rw [s.takeInput_cons hin] at htake
  cases htake
  rcases hcase with ⟨w, why, rfl, hd, rfl⟩ | ⟨w, i, rfl, hd, hi⟩ | ⟨v, rfl, hphase, rfl⟩ | ⟨v, rfl, hphase, hi⟩
  · simp only [State.raisedOn, hd, State.raise_fault]
  · simp only [State.raisedOn, hd]
    exact (exec_case hi).fault_eq hf
  · simp only [State.raisedOn, hphase, State.kbdPoll_fault, hf]
  · simp only [State.raisedOn, hphase]
    exact (exec_case hi).fault_eq hf

theorem State.raisedOn_reserved_iff {s : State} {x : Input} {w : Word} :
    s.raisedOn x = some (.reservedCommand w) ↔ x = .command w ∧ ∃ why, decodeCommand w = .reserved why := by
  have never (i : Instr) : s.raisedBy i ≠ some (.reservedCommand w) := by simp [State.raisedBy_iff]
  cases x with
  | command v =>
    cases hd : decodeCommand v with
    | instr i =>
      simp only [State.raisedOn, hd, never i, Input.command.injEq, false_iff]
      rintro ⟨rfl, why, hwhy⟩
      rw [hd] at hwhy; cases hwhy
    | reserved why =>
      simp only [State.raisedOn, hd, Option.some.injEq, Cause.reservedCommand.injEq, Input.command.injEq]
      exact ⟨fun e => ⟨e, why, by rw [← e, hd]⟩, fun ⟨e, _⟩ => e⟩
  | keyboard v => cases hphase : s.phase <;> simp [State.raisedOn, hphase, never]

theorem State.raisedOn_notInitialized_iff {s : State} {x : Input} {c : Byte} :
    s.raisedOn x = some (.notInitialized c) ↔ s.initDone = false
      ∧ ((∃ w i, x = .command w ∧ decodeCommand w = .instr i ∧ i.putcChar = some c)
        ∨ (∃ sc key, s.phase = .read ∧ x = .keyboard sc ∧ decodeScancode sc = .scKeyMake key
            ∧ decodeKey s.params key (xor s.shiftHeld s.capsLocked) = some c)) := by
  have hands {i : Instr} : s.raisedBy i = some (.notInitialized c) ↔ s.initDone = false ∧ s.handed i = some c := by
    simp [State.raisedBy_iff]
  cases x with
  | command w =>
    cases hd : decodeCommand w with
    | instr i =>
      obtain ⟨-, -, hcmd⟩ := decodeCommand_faithful hd
      simp [State.raisedOn, hd, hands, State.handed_command hcmd]
    | reserved why => simp [State.raisedOn, hd]
  | keyboard sc =>
    cases hphase : s.phase with
    | poll => simp [State.raisedOn, hphase]
    | read =>
      obtain ⟨-, -, hclass⟩ := decodeScancode_faithful sc
      simp [State.raisedOn, hphase, hands, State.handed_scancode hclass, State.shifted]

/-- Settles O57: what a step leaves in `fault` is what its input raises, and when that is either of the two
faults is read off the decoders. -/
theorem faultsAreRaisedExactlyWhenNamed : Obligations.FaultsAreRaisedExactlyWhenNamed := by
  intro s t x rest hin h
  rw [step_fault_eq hin h]
  exact ⟨fun w => State.raisedOn_reserved_iff, fun c => State.raisedOn_notInitialized_iff, fun _ => rfl,
    fun _ => rfl⟩

end Sys2Proof.Machine

/-! ### Proofs for the display family (40_display.md): CURSOR_SYNC, SCROLL against its loop, what each command
form makes of a state, and sequences of newlines and of plain characters. -/

namespace Sys2Proof.Machine

/-! ## CURSOR_SYNC (R103) -/

/-- `s` after a CURSOR_SYNC of position `(col, row)`. -/
def State.syncedAt (s : State) (col row : Nat) : State :=
  (s.setCrtc (syncedCrtc s.params (offsetOf col row))).emit (syncEvents s.params (offsetOf col row))

theorem State.cursorSync_syncedAt {s : State} {col row : Nat} (hp : s.params.wf = true)
    (hc : s.cursorCol.toNat = col) (hr : s.cursorRow.toNat = row) : s.cursorSync = .ok (s.syncedAt col row) := by
  rw [s.cursorSync_eq hp, State.offset_eq hc hr]; rfl

/-- The offset of a position in range loses no bit. -/
theorem offsetOf_toNat {col row : Nat} (hc : col < WIDTH) (hr : row < HEIGHT) :
    (offsetOf col row).toNat = row * 80 + col := by
  simp only [WIDTH, HEIGHT] at hc hr
  rw [offsetOf, BitVec.toNat_ofNat]
  omega

/-- The column behind the last is column 0 of the next row. -/
theorem offsetOf_wrap (row : Nat) : offsetOf 80 row = offsetOf 0 (row + 1) := by
  unfold offsetOf
  rw [show row * 80 + 80 = (row + 1) * 80 + 0 by omega]

/-- Settles O43: the two bytes of the offset are its remainder and its quotient by 256. -/
theorem cursorSyncWritesTheOffset : Obligations.CursorSyncWritesTheOffset := by
  intro s hp ⟨hc, hr⟩
  have value := offsetOf_toNat hc hr
  have lo : cellChar (offsetOf s.cursorCol.toNat s.cursorRow.toNat)
      = BitVec.ofNat 8 ((s.cursorRow.toNat * 80 + s.cursorCol.toNat) % 256) := by
    rw [← value, ← cellChar_toNat, BitVec.ofNat_toNat, BitVec.setWidth_eq]
  have hi : cellAttr (offsetOf s.cursorCol.toNat s.cursorRow.toNat)
      = BitVec.ofNat 8 ((s.cursorRow.toNat * 80 + s.cursorCol.toNat) / 256) := by
    rw [← value, ← cellAttr_toNat, BitVec.ofNat_toNat, BitVec.setWidth_eq]
  refine ⟨_, State.cursorSync_syncedAt hp rfl rfl, ?_, rfl, ?_⟩
  · rw [← lo, ← hi]; rfl
  · exact (congrArg BitVec.toNat (syncedCrtc_location _ _)).trans value

/-! ## SCROLL (R104) -/

/-- `s` with equal memories and equal event lists put in. -/
theorem State.mem_trace_congr (s : State) {m n : Memory} {es fs : List Event} (hm : m = n) (he : es = fs) :
    { s with mem := m, trace := es } = { s with mem := n, trace := fs } := by rw [hm, he]

/-- Two runs of cells stored one behind the other are one run. -/
theorem State.storeCells_append {s : State} (h : s.mem.wf) (i : Nat) (us vs : List Word) :
    (s.storeCells i us).storeCells (i + us.length) vs = s.storeCells i (us ++ vs) := by
  have behind : cellAddr s.params (i + us.length) = cellAddr s.params i + (cellsToBytes us).length := by
    rw [cellsToBytes_length]; unfold cellAddr; omega
  have run := Memory.writeRun_append h (cellAddr s.params i) (cellsToBytes us) (cellsToBytes vs)
  rw [← behind, ← cellsToBytes_append] at run
  exact congrArg (fun m => { s with mem := m }) run

theorem memWriteEvents_append (a : Nat) (us vs : List Word) :
    memWriteEvents a (us ++ vs) = memWriteEvents a us ++ memWriteEvents (a + 2 * us.length) vs := by
  induction us generalizing a with
  | nil => rfl
  | cons u us ih =>
    simp only [List.cons_append, memWriteEvents, ih, List.length_cons]
    rw [show a + 2 + 2 * us.length = a + 2 * (us.length + 1) by omega]

theorem scrollEvents_append (a : Nat) (us vs : List Word) :
    scrollEvents a (us ++ vs) = scrollEvents a us ++ scrollEvents (a + 2 * us.length) vs := by
  induction us generalizing a with
  | nil => rfl
  | cons u us ih =>
    simp only [List.cons_append, scrollEvents, ih, List.length_cons]
    rw [show a + 2 + 2 * us.length = a + 2 * (us.length + 1) by omega]

/-- Two runs of CELL_WRITEs one behind the other are one run, events included. -/
theorem State.writeCells_append {s : State} (h : s.mem.wf) (i : Nat) (us vs : List Word) :
    (s.writeCells i us).writeCells (i + us.length) vs = s.writeCells i (us ++ vs) := by
  have stored := congrArg State.mem (State.storeCells_append h i us vs)
  have behind : cellAddr s.params (i + us.length) = cellAddr s.params i + 2 * us.length := by
    unfold cellAddr; omega
  have listed : (s.trace ++ memWriteEvents (cellAddr s.params i) us)
        ++ memWriteEvents (cellAddr s.params (i + us.length)) vs
      = s.trace ++ memWriteEvents (cellAddr s.params i) (us ++ vs) := by
    rw [List.append_assoc, behind, ← memWriteEvents_append]
  exact s.mem_trace_congr stored listed

theorem State.cellWriteAt_eq (s : State) (i : Nat) (v : Word) : s.cellWriteAt i v = s.writeCells i [v] := rfl

/-- `s` after the first `n` copies of SCROLL's first loop. -/
def State.copied (s : State) (n : Nat) : State :=
  (s.storeCells 0 (s.cells WIDTH n)).emit (scrollEvents (cellAddr s.params 0) (s.cells WIDTH n))

theorem State.copied_zero {s : State} (h : s.mem.wf) : s.copied 0 = s := by
  have empty : s.cells WIDTH 0 = [] := by rw [s.cells_eq h]; rfl
  unfold State.copied
  rw [empty]
  exact s.mem_trace_congr (Memory.writeRun_nil h _) (List.append_nil _)

/-- The next cell that SCROLL reads is still as it was before the scroll: only cells above it are written. -/
theorem State.copied_cell_next (s : State) (n : Nat) : (s.copied n).cell (n + 80) = s.cell (n + 80) :=
  (State.cell_congr rfl rfl _).trans
    (s.storeCells_cell_outside 0 (n + 80) (s.cells WIDTH n) (.inr (by rw [State.cells_length]; omega)))

/-- One turn of SCROLL's first loop is one more copy. -/
theorem State.copyCell_copied {s : State} (h : s.mem.wf) (n : Nat) :
    (s.copied n).copyCell (n + 80) n = s.copied (n + 1) := by
  have more : s.cells WIDTH (n + 1) = s.cells WIDTH n ++ [s.cell (n + 80)] := by
    rw [s.cells_eq h, s.cells_eq h, List.range_succ, List.map_append, Nat.add_comm n 80]; rfl
  have stored := congrArg State.mem (State.storeCells_append h 0 (s.cells WIDTH n) [s.cell (n + 80)])
  rw [State.cells_length, Nat.zero_add, ← more] at stored
  have listed : ((s.trace ++ scrollEvents (cellAddr s.params 0) (s.cells WIDTH n))
        ++ [.memRead (s.params.fbBase + 2 * (n + 80)) (s.cell (n + 80))])
        ++ [.memWrite (s.params.fbBase + 2 * n) (s.cell (n + 80))]
      = s.trace ++ scrollEvents (cellAddr s.params 0) (s.cells WIDTH (n + 1)) := by
    rw [more, scrollEvents_append, State.cells_length]
    simp only [scrollEvents, cellAddr, WIDTH, List.append_assoc, List.cons_append, List.nil_append]
    rw [show s.params.fbBase + 2 * 0 + 2 * n + 2 * 80 = s.params.fbBase + 2 * (n + 80) by omega,
      show s.params.fbBase + 2 * 0 + 2 * n = s.params.fbBase + 2 * n by omega]
  unfold State.copyCell
  rw [s.copied_cell_next]
  exact s.mem_trace_congr stored listed

/-- The inner loop of SCROLL's copies, over the first `k` columns of row `y`. -/
theorem State.copyRow_copied {s : State} (h : s.mem.wf) (y k : Nat) :
    (List.range k).foldl (fun u x => u.copyCell ((y + 1) * 80 + x) (y * 80 + x)) (s.copied (y * 80))
      = s.copied (y * 80 + k) := by
  induction k with
  | zero => rfl
  | succ k ih =>
    rw [List.range_succ, List.foldl_append, ih, List.foldl_cons, List.foldl_nil,
      show (y + 1) * 80 + k = y * 80 + k + 80 by omega]
    exact State.copyCell_copied h _

/-- Both loops of SCROLL's copies, over the first `n` rows. -/
theorem State.copyRows_copied {s : State} (h : s.mem.wf) (n : Nat) :
    (List.range n).foldl (fun t y => (List.range 80).foldl
        (fun u x => u.copyCell ((y + 1) * 80 + x) (y * 80 + x)) t) s
      = s.copied (n * 80) := by
  induction n with
  | zero => rw [Nat.zero_mul, State.copied_zero h]; rfl
  | succ n ih =>
    rw [List.range_succ (n := n), List.foldl_append, ih, List.foldl_cons, List.foldl_nil, State.copyRow_copied h,
      Nat.succ_mul]

/-- SCROLL's second loop, over the first `k` columns. -/
theorem State.blankRow_eq {t : State} (h : t.mem.wf) (i k : Nat) (v : Word) :
    (List.range k).foldl (fun u x => u.cellWriteAt (i + x) v) t = t.writeCells i (List.replicate k v) := by
  induction k with
  | zero => exact (t.mem_trace_congr (Memory.writeRun_nil h _)
      (List.append_nil _)).symm
  | succ k ih =>
    rw [List.range_succ, List.foldl_append, ih, List.foldl_cons, List.foldl_nil, State.cellWriteAt_eq,
      List.replicate_succ', ← State.writeCells_append h, List.length_replicate]

/-- SCROLL is its copies and then its blanks. -/
theorem State.scroll_eq_copied {s : State} (h : s.mem.wf) :
    s.scroll = (s.copied (CELLS - WIDTH)).writeCells (CELLS - WIDTH) (List.replicate WIDTH (blank s.attr)) := by
  have stored := congrArg State.mem (State.storeCells_append h 0 (s.cells WIDTH (CELLS - WIDTH))
    (List.replicate WIDTH (blank s.attr)))
  rw [State.cells_length, Nat.zero_add] at stored
  exact s.mem_trace_congr stored.symm (List.append_assoc _ _ _).symm

theorem State.scroll_eq_scrollLoop {s : State} (h : s.mem.wf) : s.scroll = s.scrollLoop := by
  have hm : (s.copied (CELLS - WIDTH)).mem.wf := Memory.writeRun_wf h _ _
  rw [State.scroll_eq_copied h, ← State.blankRow_eq hm]
  unfold State.scrollLoop
  rw [State.copyRows_copied h]
  rfl

/-- SCROLL in full: memory and the events of its pseudocode, nothing else. -/
theorem State.scroll_eq {s : State} (h : s.mem.wf) :
    s.scroll = { s with mem := s.scroll.mem, trace := s.trace ++ scrollTrace s.params s.cell s.attr } := by
  rw [← s.scroll_trace_eq h]; rfl

/-- Settles O45: the loops add one cell a turn to the run that the model stores at once. -/
theorem scrollIsItsLoop : Obligations.ScrollIsItsLoop :=
  fun s h => ⟨State.scroll_eq_scrollLoop h, State.scroll_eq h, s.scroll_scrolledFrom h, s.scroll_sameBytesOutside⟩

end Sys2Proof.Machine

namespace Sys2Proof.Machine

/-! ## INIT (R107) and SETCOLOR (R108) -/

theorem exec_init {s : State} (hp : s.params.wf = true) : exec .init s = .next (s.cleared.syncedAt 0 0) :=
  congrArg (finish s) (State.cursorSync_syncedAt (s := s.cleared) hp rfl rfl)

theorem State.cleared_trace (s : State) :
    s.cleared.trace = s.trace
      ++ (List.range 2000).map (fun i => .memWrite (s.params.fbBase + 2 * i) (blank s.params.defaultAttr)) :=
  congrArg (s.trace ++ ·) (memWriteEvents_replicate (cellAddr s.params 0) CELLS (blank s.params.defaultAttr))

theorem State.cleared_cell (s : State) {i : Nat} (hi : i < CELLS) :
    s.cleared.cell i = blank s.params.defaultAttr := by
  have stored := (s.setAttr s.params.defaultAttr).writeCells_cell_inside 0 i
    (List.replicate CELLS (blank s.params.defaultAttr)) (by rwa [List.length_replicate])
  rw [Nat.zero_add, List.getElem_replicate] at stored
  exact (State.cell_congr rfl rfl i).trans stored

theorem State.cleared_sameBytesOutside (s : State) : sameBytesOutside s.params.fbBase (2 * CELLS) s s.cleared :=
  fun x hx => (s.setAttr s.params.defaultAttr).writeCells_read_outside 0 x
    (List.replicate CELLS (blank s.params.defaultAttr)) (by rwa [List.length_replicate])

/-- Settles O18: the 2000 stores as one run, then the CURSOR_SYNC of (0,0). -/
theorem initClearsTheScreen : Obligations.InitClearsTheScreen := by
  refine ⟨rfl, fun s hp => ⟨_, exec_init hp, ?_, fun i hi => ?_, s.cleared_sameBytesOutside⟩⟩
  · rw [← s.cleared_trace]; rfl
  · exact s.cleared_cell hi

/-- Settles O19: one field is written, with the operands joined. -/
theorem setcolorSetsTheAttributeOnly : Obligations.SetcolorSetsTheAttributeOnly :=
  fun _ _ _ => ⟨rfl, rfl⟩

/-! ## The frame of PUTC (R106) -/

/-- Settles O21: whatever the form's body, the frame raises before it runs. -/
theorem putcBeforeInitRaises : Obligations.PutcBeforeInitRaises := by
  intro i c s hc hi
  obtain ⟨body, hexec, -⟩ := exec_putc i c s hc
  rw [hexec, s.putc_uninitialised c body hi]
  rfl

/-- A PUTC whose body ends well with the cursor at `(col, row)`. -/
theorem finish_putc_syncedAt {before s u : State} {c : Byte} {body : State → Except Stop State} {col row : Nat}
    (hi : s.initDone = true) (hb : body s = .ok u) (hp : u.params.wf = true)
    (hc : u.cursorCol.toNat = col) (hr : u.cursorRow.toNat = row) :
    finish before (s.putc c body) = .next (u.syncedAt col row) := by
  rw [s.putc_eq u c body hi hb hp, State.offset_eq hc hr]
  rfl

/-! ## Line advance (R105, R109) -/

/-- `u` after a newline above row 24. -/
def State.newlineDown (u : State) : State :=
  ((u.setCol 0).setRow (BitVec.ofNat 5 (u.cursorRow.toNat + 1))).syncedAt 0 (u.cursorRow.toNat + 1)

/-- `u` after a newline in row 24. -/
def State.newlineScrolled (u : State) : State := ((u.setCol 0).scroll.setRow 24).syncedAt 0 24

/-- Every PUTC that ends as a newline does, above row 24: PUTC.NL, a tab that overflows, a plain character that
wraps. -/
theorem finish_putc_newlineDown {before s u : State} {c : Byte} {body : State → Except Stop State}
    (hi : s.initDone = true) (hb : body s = newlineBody u) (hp : u.params.wf = true)
    (hr : u.cursorRow.toNat < 24) : finish before (s.putc c body) = .next u.newlineDown := by
  refine finish_putc_syncedAt hi (hb.trans (newlineBody_down u hr)) hp rfl ?_
  rw [State.setRow_cursorRow, BitVec.toNat_ofNat]
  omega

/-- Every PUTC that ends as a newline does, in row 24. -/
theorem finish_putc_newlineScrolled {before s u : State} {c : Byte} {body : State → Except Stop State}
    (hi : s.initDone = true) (hb : body s = newlineBody u) (hp : u.params.wf = true)
    (hr : u.cursorRow.toNat = 24) : finish before (s.putc c body) = .next u.newlineScrolled :=
  finish_putc_syncedAt hi (hb.trans (newlineBody_scroll u hr)) hp rfl rfl

/-- A newline in row 24 in full: the column, memory, the CRTC and the events; the row is 24 already. -/
theorem State.newlineScrolled_eq {u : State} (hm : u.mem.wf) (hr : u.cursorRow.toNat = 24) :
    u.newlineScrolled = { u with
      cursorCol := 0
      mem := u.newlineScrolled.mem
      crtc := syncedCrtc u.params (offsetOf 0 24)
      trace := u.trace ++ scrollTrace u.params u.cell u.attr ++ syncEvents u.params (offsetOf 0 24) } := by
  have row : u.cursorRow = 24 := BitVec.eq_of_toNat_eq hr
  have listed : (u.setCol 0).scroll.trace = u.trace ++ scrollTrace u.params u.cell u.attr :=
    (u.setCol 0).scroll_trace_eq hm
  rw [← listed, row]
  rfl

theorem State.newlineScrolled_scrolledFrom {u : State} (hm : u.mem.wf) :
    scrolledFrom u.cell u.attr u.newlineScrolled :=
  (u.setCol 0).scroll_scrolledFrom hm

theorem State.newlineScrolled_sameBytesOutside (u : State) :
    sameBytesOutside u.params.fbBase (2 * CELLS) u u.newlineScrolled :=
  (u.setCol 0).scroll_sameBytesOutside

/-! ## PUTC.NL (R109) -/

theorem exec_putcNl_down {s : State} (hp : s.params.wf = true) (hi : s.initDone = true)
    (hr : s.cursorRow.toNat < 24) : exec .putcNl s = .next s.newlineDown :=
  finish_putc_newlineDown hi rfl hp hr

theorem exec_putcNl_scroll {s : State} (hp : s.params.wf = true) (hi : s.initDone = true)
    (hr : s.cursorRow.toNat = 24) : exec .putcNl s = .next s.newlineScrolled :=
  finish_putc_newlineScrolled hi rfl hp hr

/-- Settles O22: a line advance above the last row, synced. -/
theorem newlineMovesDown : Obligations.NewlineMovesDown :=
  fun _ hp hi hr => exec_putcNl_down hp hi hr

/-- Settles O23: a line advance in the last row scrolls, then syncs. -/
theorem newlineScrollsAtTheLastRow : Obligations.NewlineScrollsAtTheLastRow :=
  fun s hp hm hi hr => ⟨_, exec_putcNl_scroll hp hi hr, State.newlineScrolled_eq hm hr,
    State.newlineScrolled_scrolledFrom hm, s.newlineScrolled_sameBytesOutside⟩

/-! ## PUTC.TAB (R110) -/

/-- Settles O24: below column 76 the tab stop fits the row. -/
theorem tabMovesToTheNextStop : Obligations.TabMovesToTheNextStop := by
  intro s hp hi hc
  refine finish_putc_syncedAt hi (tabBody_inside s hc) hp ?_ rfl
  rw [State.setCol_cursorCol, BitVec.toNat_ofNat]
  omega

/-- Settles O25: past column 75 a tab is a newline. -/
theorem tabOverflowsToTheNextRow : Obligations.TabOverflowsToTheNextRow :=
  fun s hp hi hc _ hr => finish_putc_newlineDown hi (tabBody_overflow s hc) hp hr

/-- Settles O26: past column 75 a tab is a newline, in row 24 with its scroll. -/
theorem tabScrollsAtTheLastRow : Obligations.TabScrollsAtTheLastRow :=
  fun s hp hm hi hc _ hr => ⟨_, finish_putc_newlineScrolled hi (tabBody_overflow s hc) hp hr,
    State.newlineScrolled_eq hm hr, State.newlineScrolled_scrolledFrom hm, s.newlineScrolled_sameBytesOutside⟩

/-! ## PUTC.BS (R111) -/

/-- Settles O27: the body does nothing, the frame still syncs. -/
theorem backspaceAtTheOriginOnlySyncs : Obligations.BackspaceAtTheOriginOnlySyncs :=
  fun s hp hi hc hr => finish_putc_syncedAt (col := 0) (row := 0) hi (backspaceBody_origin s hc hr) hp
    (congrArg BitVec.toNat hc) (congrArg BitVec.toNat hr)

/-- Settles O28: one store at the column the cursor moves to. -/
theorem backspaceErasesToTheLeft : Obligations.BackspaceErasesToTheLeft := by
  intro s hp hi h0 hc hr
  have column : (BitVec.ofNat 7 (s.cursorCol.toNat - 1)).toNat = s.cursorCol.toNat - 1 := by
    rw [BitVec.toNat_ofNat]; omega
  exact ⟨_, finish_putc_syncedAt hi (backspaceBody_left s h0 hc hr) hp column rfl, rfl,
    State.writeCells_cell_self _ _ _, fun x hx => State.writeCells_read_outside _ _ x [blank s.attr] hx⟩

/-- Settles O29: one store in the last column of the row above. -/
theorem backspaceCrossesToThePreviousRow : Obligations.BackspaceCrossesToThePreviousRow := by
  intro s hp hi hc h0 hr
  have row : (BitVec.ofNat 5 (s.cursorRow.toNat - 1)).toNat = s.cursorRow.toNat - 1 := by
    rw [BitVec.toNat_ofNat]; omega
  exact ⟨_, finish_putc_syncedAt hi (backspaceBody_previous s hc h0 hr) hp rfl row, rfl,
    State.writeCells_cell_self _ _ _, fun x hx => State.writeCells_read_outside _ _ x [blank s.attr] hx⟩

/-! ## PUTC.PLAIN (R112) -/

/-- `s` with the character's cell under the cursor. -/
def State.stamped (s : State) (c : Byte) : State :=
  s.writeCells (cellIndex s.cursorCol.toNat s.cursorRow.toNat) [cellval c s.attr]

/-- The whole framebuffer after one CELL_WRITE. -/
theorem State.writeCells_cell_eq (s : State) (i : Nat) (v : Word) :
    (s.writeCells i [v]).cell = fun j => if j = i then v else s.cell j := by
  funext j
  split
  · next h => rw [h]; exact s.writeCells_cell_self i v
  · next h => exact s.writeCells_cell_outside i j [v] (by simp only [List.length_singleton]; omega)

/-- `s` after a plain character before the last column. -/
def State.plainAdvanced (s : State) (c : Byte) : State :=
  ((s.stamped c).setCol (BitVec.ofNat 7 (s.cursorCol.toNat + 1))).syncedAt (s.cursorCol.toNat + 1)
    s.cursorRow.toNat

theorem exec_putcPlain_advance {s : State} (c : Byte) (hp : s.params.wf = true) (hi : s.initDone = true)
    (hc : s.cursorCol.toNat < 79) (hr : s.cursorRow.toNat < 25) :
    exec (.putcPlain c) s = .next (s.plainAdvanced c) := by
  refine finish_putc_syncedAt hi (plainBody_inside s c hc hr) hp ?_ rfl
  rw [State.setCol_cursorCol, BitVec.toNat_ofNat]
  omega

/-- In the last column a plain character is its cell and then a newline. -/
theorem plainBody_stamped {s : State} (c : Byte) (hc : s.cursorCol.toNat = 79) (hr : s.cursorRow.toNat < 25) :
    plainBody c s = newlineBody (s.stamped c) := by
  rw [plainBody_wrap s c hc hr, ← hc]; rfl

theorem exec_putcPlain_wrap {s : State} (c : Byte) (hp : s.params.wf = true) (hi : s.initDone = true)
    (hc : s.cursorCol.toNat = 79) (hr : s.cursorRow.toNat < 24) :
    exec (.putcPlain c) s = .next (s.stamped c).newlineDown :=
  finish_putc_newlineDown hi (plainBody_stamped c hc (Nat.lt_succ_of_lt hr)) hp hr

theorem exec_putcPlain_scroll {s : State} (c : Byte) (hp : s.params.wf = true) (hi : s.initDone = true)
    (hc : s.cursorCol.toNat = 79) (hr : s.cursorRow.toNat = 24) :
    exec (.putcPlain c) s = .next (s.stamped c).newlineScrolled :=
  finish_putc_newlineScrolled hi (plainBody_stamped c hc (by omega)) hp hr

/-- Settles O30: one store under the old cursor, which then moves within the row. -/
theorem plainWritesAndAdvances : Obligations.PlainWritesAndAdvances :=
  fun s c hp hi hc hr => ⟨_, exec_putcPlain_advance c hp hi hc hr, rfl, s.writeCells_cell_self _ _,
    fun x hx => s.writeCells_read_outside _ x [cellval c s.attr] hx⟩

/-- Settles O31: one store in the last column, then a newline above the last row. -/
theorem plainWrapsToTheNextRow : Obligations.PlainWrapsToTheNextRow := by
  intro s c hp hi hc hr
  refine ⟨_, exec_putcPlain_wrap c hp hi hc hr, ?_⟩
  rw [← hc]
  exact ⟨rfl, s.writeCells_cell_self _ _, fun x hx => s.writeCells_read_outside _ x [cellval c s.attr] hx⟩

/-- The last cell's framebuffer after a plain character there, before the scroll. -/
theorem State.stamped_last (s : State) (c : Byte) (hc : s.cursorCol.toNat = 79) (hr : s.cursorRow.toNat = 24) :
    s.stamped c = s.writeCells 1999 [cellval c s.attr] := by
  unfold State.stamped; rw [hc, hr]; rfl

/-- Settles O32: the newline in row 24 acts on the state with the cell stored. -/
theorem plainScrollsAtTheLastCell : Obligations.PlainScrollsAtTheLastCell := by
  intro s c hp hm hi hc hr
  have executed := exec_putcPlain_scroll c hp hi hc hr
  rw [s.stamped_last c hc hr] at executed
  have hm' := s.writeCells_wf hm 1999 [cellval c s.attr]
  have shown := State.newlineScrolled_eq hm' hr
  have result := State.newlineScrolled_scrolledFrom hm'
  rw [s.writeCells_cell_eq] at shown result
  refine ⟨_, executed, shown, result, fun x hx => ?_⟩
  exact ((s.writeCells 1999 [cellval c s.attr]).newlineScrolled_sameBytesOutside x hx).trans
    (s.writeCells_read_outside 1999 x [cellval c s.attr] (by
      simp only [cellAddr, List.length_singleton]; omega))

end Sys2Proof.Machine

namespace Sys2Proof.Machine

/-! ## What a sequence of display commands leaves -/

/-- `s` with what a sequence of PUTC forms changes: the cursor, memory, the CRTC and the events in between. -/
def State.displayed (s : State) (col : BitVec 7) (row : BitVec 5) (m : Memory) (k : Crtc) (es : List Event) : State :=
  { s with cursorCol := col, cursorRow := row, mem := m, crtc := k, trace := s.trace ++ es }

/-- `s` with another memory. -/
def State.withMem (s : State) (m : Memory) : State := { s with mem := m }

theorem State.displayed_self (s : State) : s.displayed s.cursorCol s.cursorRow s.mem s.crtc [] = s := by
  unfold State.displayed
  rw [List.append_nil]

/-- A CURSOR_SYNC, once more after what was displayed. -/
theorem State.displayed_syncedAt (s : State) (col : BitVec 7) (row : BitVec 5) (m : Memory) (k : Crtc)
    (es : List Event) (x y : Nat) :
    (s.displayed col row m k es).syncedAt x y
      = s.displayed col row m (syncedCrtc s.params (offsetOf x y)) (es ++ syncEvents s.params (offsetOf x y)) := by
  unfold State.displayed
  rw [← List.append_assoc]
  rfl

/-- A newline above row 24, once more after what was displayed. -/
theorem State.displayed_newlineDown (s : State) (col : BitVec 7) {row : BitVec 5} {r : Nat} (hr : row.toNat = r)
    (m : Memory) (k : Crtc) (es : List Event) :
    (s.displayed col row m k es).newlineDown = s.displayed 0 (BitVec.ofNat 5 (r + 1)) m
      (syncedCrtc s.params (offsetOf 0 (r + 1))) (es ++ syncEvents s.params (offsetOf 0 (r + 1))) := by
  subst hr
  exact s.displayed_syncedAt 0 (BitVec.ofNat 5 (row.toNat + 1)) m k es 0 (row.toNat + 1)

/-- A newline in row 24, once more after what was displayed. -/
theorem State.displayed_newlineScrolled (s : State) (col : BitVec 7) {row : BitVec 5} (hr : row.toNat = 24)
    {m : Memory} (hm : m.wf) (k : Crtc) (es : List Event) :
    (s.displayed col row m k es).newlineScrolled = s.displayed 0 24 (s.withMem m).scroll.mem
      (syncedCrtc s.params (offsetOf 0 24))
      (es ++ (scrollTrace s.params (s.withMem m).cell s.attr ++ syncEvents s.params (offsetOf 0 24))) := by
  have row24 : row = 24 := BitVec.eq_of_toNat_eq hr
  subst row24
  refine (State.newlineScrolled_eq (u := s.displayed col 24 m k es) hm rfl).trans ?_
  conv_rhs => rw [State.displayed, ← List.append_assoc, ← List.append_assoc]
  rfl

/-! ## Newlines one after another (R109, C8) -/

/-- The events of `n` newlines load 1920 cells for each scroll. -/
theorem newlineEvents_flatMap_reads (p : Params) (fb : Nat → Word) (a : Byte) {r : Nat} (hr : r < 25) (n : Nat) :
    ((List.range n).flatMap (newlineEvents p fb a r)).countP Event.isRead = 1920 * (r + n - 24) := by
  induction n with
  | zero =>
    rw [show r + 0 - 24 = 0 by omega]
    rfl
  | succ n ih =>
    rw [List.range_succ, List.flatMap_append, List.countP_append, ih, List.flatMap_singleton, newlineEvents_reads]
    split <;> omega

/-- One more scroll of a framebuffer that has been scrolled `m` times. -/
theorem scrolledUp_succ (fb : Nat → Word) (a : Byte) (m i : Nat) :
    scrolledUp fb a (m + 1) i = if i < CELLS - WIDTH then scrolledUp fb a m (i + WIDTH) else blank a := by
  unfold scrolledUp
  by_cases h : i < CELLS - WIDTH
  · rw [if_pos h, show i + 80 * (m + 1) = i + WIDTH + 80 * m by simp only [WIDTH]; omega]
  · rw [if_neg h, if_neg (by simp only [CELLS, WIDTH] at h; omega)]

theorem exec_putcNl_displayed_down {s : State} (hp : s.params.wf = true) (hi : s.initDone = true)
    (col : BitVec 7) {row : BitVec 5} {r : Nat} (hr : row.toNat = r) (hlt : r < 24) (m : Memory) (k : Crtc)
    (es : List Event) :
    exec .putcNl (s.displayed col row m k es) = .next (s.displayed 0 (BitVec.ofNat 5 (r + 1)) m
      (syncedCrtc s.params (offsetOf 0 (r + 1))) (es ++ syncEvents s.params (offsetOf 0 (r + 1)))) :=
  (exec_putcNl_down (s := s.displayed col row m k es) hp hi (hr.trans_lt hlt)).trans
    (congrArg Host.Outcome.next (s.displayed_newlineDown col hr m k es))

theorem exec_putcNl_displayed_scroll {s : State} (hp : s.params.wf = true) (hi : s.initDone = true)
    (col : BitVec 7) {row : BitVec 5} (hr : row.toNat = 24) {m : Memory} (hm : m.wf) (k : Crtc)
    (es : List Event) :
    exec .putcNl (s.displayed col row m k es) = .next (s.displayed 0 24 (s.withMem m).scroll.mem
      (syncedCrtc s.params (offsetOf 0 24))
      (es ++ (scrollTrace s.params (s.withMem m).cell s.attr ++ syncEvents s.params (offsetOf 0 24)))) :=
  (exec_putcNl_scroll (s := s.displayed col row m k es) hp hi hr).trans
    (congrArg Host.Outcome.next (s.displayed_newlineScrolled col hr hm k es))

/-- `m` is the memory of `s` with its framebuffer scrolled up `j` times. -/
structure State.ScrolledMem (s : State) (j : Nat) (m : Memory) : Prop where
  wf : m.wf
  cells : ∀ i, i < 2000 → (s.withMem m).cell i = scrolledUp s.cell s.attr j i
  outside : sameBytesOutside s.params.fbBase 4000 s (s.withMem m)

theorem State.ScrolledMem.zero {s : State} (hm : s.mem.wf) : s.ScrolledMem 0 s.mem where
  wf := hm
  cells _ hi := (scrolledUp_zero _ _ hi).symm
  outside _ _ := rfl

theorem State.ScrolledMem.succ {s : State} {j : Nat} {m : Memory} (h : s.ScrolledMem j m) :
    s.ScrolledMem (j + 1) (s.withMem m).scroll.mem where
  wf := (s.withMem m).scroll_wf h.wf
  cells i hi := by
    refine ((State.cell_congr rfl rfl i).trans ((s.withMem m).scroll_stored h.wf i hi)).trans ?_
    rw [scrolledUp_succ]
    split
    · next hlt => exact h.cells (i + WIDTH) (Nat.add_lt_of_lt_sub hlt)
    · rfl
  outside x hx := ((s.withMem m).scroll_sameBytesOutside x hx).trans (h.outside x hx)

/-- `s` after `n` newlines, with the memory they leave. -/
def State.afterNewlines (s : State) (n : Nat) (col : BitVec 7) (m : Memory) (k : Crtc) : State :=
  s.displayed col (BitVec.ofNat 5 (min 24 (s.cursorRow.toNat + n))) m k
    ((List.range n).flatMap (newlineEvents s.params s.cell s.attr s.cursorRow.toNat))

theorem State.afterNewlines_zero {s : State} (hr : s.cursorRow.toNat < 25) :
    s.afterNewlines 0 s.cursorCol s.mem s.crtc = s := by
  have row : BitVec.ofNat 5 (min 24 (s.cursorRow.toNat + 0)) = s.cursorRow := by
    rw [Nat.add_zero, Nat.min_eq_right (Nat.le_of_lt_succ hr), BitVec.ofNat_toNat, BitVec.setWidth_eq]
  unfold State.afterNewlines
  rw [row]
  exact s.displayed_self

/-- The newline number `n` (from 0): a row further down while rows remain, else one scroll more. -/
theorem exec_putcNl_afterNewlines {s : State} (hp : s.params.wf = true) (hi : s.initDone = true) (n : Nat)
    {m : Memory} (h : s.ScrolledMem (s.cursorRow.toNat + n - 24) m) (col : BitVec 7) (k : Crtc) :
    ∃ m', exec .putcNl (s.afterNewlines n col m k) = .next (s.afterNewlines (n + 1) 0 m'
        (syncedCrtc s.params (offsetOf 0 (min 24 (s.cursorRow.toNat + (n + 1))))))
      ∧ s.ScrolledMem (s.cursorRow.toNat + (n + 1) - 24) m' := by
  have row : (BitVec.ofNat 5 (min 24 (s.cursorRow.toNat + n))).toNat = min 24 (s.cursorRow.toNat + n) := by
    rw [BitVec.toNat_ofNat]; omega
  unfold State.afterNewlines
  rw [List.range_succ, List.flatMap_append, List.flatMap_singleton, newlineEvents]
  by_cases hr : s.cursorRow.toNat + n < 24
  · have here := row.trans (show min 24 (s.cursorRow.toNat + n) = s.cursorRow.toNat + n by omega)
    rw [show min 24 (s.cursorRow.toNat + (n + 1)) = s.cursorRow.toNat + n + 1 by omega, if_pos hr]
    refine ⟨m, exec_putcNl_displayed_down hp hi col here hr m k _, ?_⟩
    rwa [show s.cursorRow.toNat + (n + 1) - 24 = s.cursorRow.toNat + n - 24 by omega]
  · have last := row.trans (show min 24 (s.cursorRow.toNat + n) = 24 by omega)
    have loaded : scrollTrace s.params (scrolledUp s.cell s.attr (s.cursorRow.toNat + n - 24)) s.attr
        = scrollTrace s.params (s.withMem m).cell s.attr :=
      scrollTrace_congr fun i _ hlt => (h.cells i hlt).symm
    rw [show min 24 (s.cursorRow.toNat + (n + 1)) = 24 by omega, if_neg hr, loaded]
    refine ⟨(s.withMem m).scroll.mem, exec_putcNl_displayed_scroll hp hi col last h.wf k _, ?_⟩
    rw [show s.cursorRow.toNat + (n + 1) - 24 = s.cursorRow.toNat + n - 24 + 1 by omega]
    exact h.succ

/-- A sequence of newlines; the first sets the column and the CRTC. -/
theorem execAll_newlines {s : State} (hp : s.params.wf = true) (hm : s.mem.wf) (hf : s.fault = none)
    (hi : s.initDone = true) (hr : s.cursorRow.toNat < 25) (n : Nat) :
    ∃ col m k, execAll (List.replicate n .putcNl) s = .next (s.afterNewlines n col m k)
      ∧ s.ScrolledMem (s.cursorRow.toNat + n - 24) m
      ∧ (0 < n → col = 0 ∧ k = syncedCrtc s.params (offsetOf 0 (min 24 (s.cursorRow.toNat + n)))) := by
  induction n with
  | zero =>
    refine ⟨s.cursorCol, s.mem, s.crtc, by rw [State.afterNewlines_zero hr]; rfl, ?_,
      fun h => absurd h (Nat.lt_irrefl 0)⟩
    rw [show s.cursorRow.toNat + 0 - 24 = 0 by omega]
    exact State.ScrolledMem.zero hm
  | succ n ih =>
    obtain ⟨col, m, k, hall, hmem, -⟩ := ih
    obtain ⟨m', hexec, hmem'⟩ := exec_putcNl_afterNewlines hp hi n hmem col k
    refine ⟨0, m', _, ?_, hmem', fun _ => ⟨rfl, rfl⟩⟩
    rw [List.replicate_succ']
    exact execAll_concat hall hf hexec hf

/-- Settles O47, by induction on the number of newlines (`execAll_newlines`). -/
theorem newlinesScrollByTheirExcess : Obligations.NewlinesScrollByTheirExcess := by
  intro n s hp hm hf hi hr hn
  obtain ⟨col, m, k, hall, hmem, hset⟩ := execAll_newlines hp hm hf hi hr n
  obtain ⟨rfl, rfl⟩ := hset hn
  refine ⟨_, hall, rfl, ?_, hmem.cells, hmem.outside⟩
  rw [← newlineEvents_flatMap_reads s.params s.cell s.attr hr n, ← List.countP_append]
  rfl

/-! ## A row of plain characters (R112, C9) -/

theorem plainEvents_concat (p : Params) (a : Byte) (row : Nat) (xs : List Byte) (c : Byte) :
    plainEvents p a row 0 (xs ++ [c]) = plainEvents p a row 0 xs
      ++ ([.memWrite (p.fbBase + 2 * (row * 80 + xs.length)) (a ++ c)]
        ++ syncEvents p (offsetOf (xs.length + 1) row)) := by
  rw [plainEvents_append, Nat.zero_add]
  simp only [plainEvents, List.append_nil, List.singleton_append]

/-- `m` is the memory of `s` with the characters `xs` in the cursor's row from column 0 on. -/
structure State.TypedMem (s : State) (xs : List Byte) (m : Memory) : Prop where
  cells : (s.withMem m).cell = overRow s.cell s.attr s.cursorRow.toNat xs
  outside : sameBytesOutside (cellAddr s.params (s.cursorRow.toNat * 80)) 160 s (s.withMem m)
  wf : s.mem.wf → m.wf

theorem State.TypedMem.nil (s : State) : s.TypedMem [] s.mem where
  cells := by
    funext i
    exact (if_neg (by rw [List.length_nil]; omega)).symm
  outside _ _ := rfl
  wf := id

/-- The memory `m` of a row typed up to `xs`, with the next character's cell stored. -/
def State.memTyping (s : State) (xs : List Byte) (m : Memory) (c : Byte) : Memory :=
  ((s.withMem m).writeCells (cellIndex xs.length s.cursorRow.toNat) [cellval c s.attr]).mem

/-- The next character's cell is stored behind the others, inside the row. -/
theorem State.TypedMem.concat {s : State} {xs : List Byte} {m : Memory} (h : s.TypedMem xs m)
    (hlen : xs.length < 80) (c : Byte) : s.TypedMem (xs ++ [c]) (s.memTyping xs m c) where
  cells := by
    funext i
    have stored := (s.withMem m).writeCells_cell_eq (cellIndex xs.length s.cursorRow.toNat) (cellval c s.attr)
    rw [h.cells] at stored
    rw [overRow_concat]
    exact congrFun stored i
  outside x hx := by
    refine ((s.withMem m).writeCells_read_outside _ x [cellval c s.attr] ?_).trans (h.outside x hx)
    simp only [cellAddr, cellIndex, WIDTH, List.length_singleton, State.withMem] at hx ⊢
    omega
  wf hm := (s.withMem m).writeCells_wf (h.wf hm) _ _

/-- `s` with the characters `xs` typed from column 0 of its row, the cursor behind them in the same row. -/
def State.typed (s : State) (xs : List Byte) (m : Memory) (k : Crtc) : State :=
  s.displayed (BitVec.ofNat 7 xs.length) s.cursorRow m k
    (plainEvents s.params s.attr s.cursorRow.toNat 0 xs)

theorem State.typed_col (s : State) {xs : List Byte} (hlen : xs.length < 80) (m : Memory) (k : Crtc) :
    (s.typed xs m k).cursorCol.toNat = xs.length := by
  show (BitVec.ofNat 7 xs.length).toNat = xs.length
  rw [BitVec.toNat_ofNat]
  omega

/-- The next character's cell, before the cursor moves. -/
theorem State.typed_stamped (s : State) {xs : List Byte} (hlen : xs.length < 80) (m : Memory) (k : Crtc)
    (c : Byte) :
    (s.typed xs m k).stamped c = s.displayed (BitVec.ofNat 7 xs.length) s.cursorRow (s.memTyping xs m c) k
      (plainEvents s.params s.attr s.cursorRow.toNat 0 xs
        ++ [.memWrite (s.params.fbBase + 2 * (s.cursorRow.toNat * 80 + xs.length)) (s.attr ++ c)]) := by
  unfold State.stamped
  rw [s.typed_col hlen, State.displayed, ← List.append_assoc]
  rfl

/-- A plain character before the last column. -/
theorem exec_putcPlain_typed {s : State} (hp : s.params.wf = true) (hi : s.initDone = true)
    (hr : s.cursorRow.toNat < 25) {xs : List Byte} (hlen : xs.length < 79) (m : Memory) (k : Crtc) (c : Byte) :
    exec (.putcPlain c) (s.typed xs m k) = .next (s.typed (xs ++ [c]) (s.memTyping xs m c)
      (syncedCrtc s.params (offsetOf (xs.length + 1) s.cursorRow.toNat))) := by
  have col := s.typed_col (Nat.lt_succ_of_lt hlen) m k
  rw [exec_putcPlain_advance (s := s.typed xs m k) c hp hi (col.trans_lt hlen) hr]
  unfold State.plainAdvanced
  rw [col, s.typed_stamped (Nat.lt_succ_of_lt hlen)]
  unfold State.typed
  rw [plainEvents_concat, List.length_append, List.length_singleton, ← List.append_assoc]
  exact congrArg Host.Outcome.next (s.displayed_syncedAt (BitVec.ofNat 7 (xs.length + 1)) s.cursorRow _ k _ _ _)

/-- The plain character that fills a row above the last. -/
theorem exec_putcPlain_typed_wrap {s : State} (hp : s.params.wf = true) (hi : s.initDone = true)
    (hr : s.cursorRow.toNat < 24) {xs : List Byte} (hlen : xs.length = 79) (m : Memory) (k : Crtc) (c : Byte) :
    exec (.putcPlain c) (s.typed xs m k) = .next (s.displayed 0 (BitVec.ofNat 5 (s.cursorRow.toNat + 1))
      (s.memTyping xs m c) (syncedCrtc s.params (offsetOf 0 (s.cursorRow.toNat + 1)))
      (plainEvents s.params s.attr s.cursorRow.toNat 0 (xs ++ [c]))) := by
  have hlt : xs.length < 80 := by omega
  rw [exec_putcPlain_wrap (s := s.typed xs m k) c hp hi ((s.typed_col hlt m k).trans hlen) hr,
    s.typed_stamped hlt, s.displayed_newlineDown _ rfl, plainEvents_concat, ← offsetOf_wrap, hlen,
    List.append_assoc]

/-- The plain character that fills the last row. -/
theorem exec_putcPlain_typed_scroll {s : State} (hp : s.params.wf = true) (hi : s.initDone = true)
    (hr : s.cursorRow.toNat = 24) {xs : List Byte} (hlen : xs.length = 79) {m : Memory} (hm : m.wf) (k : Crtc)
    (c : Byte) :
    exec (.putcPlain c) (s.typed xs m k) = .next (s.displayed 0 24 (s.withMem (s.memTyping xs m c)).scroll.mem
      (syncedCrtc s.params (offsetOf 0 24))
      (plainEvents s.params s.attr 24 0 xs ++ [.memWrite (s.params.fbBase + 3998) (s.attr ++ c)]
        ++ (scrollTrace s.params (s.withMem (s.memTyping xs m c)).cell s.attr
          ++ syncEvents s.params (offsetOf 0 24)))) := by
  have hlt : xs.length < 80 := by omega
  have stored : (s.memTyping xs m c).wf := (s.withMem m).writeCells_wf hm _ _
  rw [exec_putcPlain_scroll (s := s.typed xs m k) c hp hi ((s.typed_col hlt m k).trans hlen) hr,
    s.typed_stamped hlt, s.displayed_newlineScrolled _ hr stored, hr, hlen]

/-- Plain characters from column 0 that leave the row's last cell free. -/
theorem execAll_plain {s : State} (hp : s.params.wf = true) (hf : s.fault = none) (hi : s.initDone = true)
    (hc : s.cursorCol = 0) (hr : s.cursorRow.toNat < 25) {xs : List Byte} (hlen : xs.length < 80) :
    ∃ m k, execAll (xs.map .putcPlain) s = .next (s.typed xs m k) ∧ s.TypedMem xs m := by
  induction xs using List.reverseRecOn with
  | nil =>
    have start : s.typed [] s.mem s.crtc = s := by
      refine Eq.trans ?_ s.displayed_self
      rw [hc]; rfl
    exact ⟨s.mem, s.crtc, by rw [start]; rfl, State.TypedMem.nil s⟩
  | append_singleton xs c ih =>
    rw [List.length_append, List.length_singleton] at hlen
    have hlen' : xs.length < 79 := Nat.lt_of_succ_lt_succ hlen
    obtain ⟨m, k, hall, hmem⟩ := ih (Nat.lt_succ_of_lt hlen')
    refine ⟨s.memTyping xs m c, syncedCrtc s.params (offsetOf (xs.length + 1) s.cursorRow.toNat), ?_,
      hmem.concat (Nat.lt_succ_of_lt hlen') c⟩
    rw [List.map_append]
    exact execAll_concat hall hf (exec_putcPlain_typed hp hi hr hlen' m k c) hf

/-- Settles O46: 79 characters by induction (`execAll_plain`), then the one in column 79. -/
theorem plainCharactersFillARow : Obligations.PlainCharactersFillARow := by
  intro s cs hp hf hi hc hlen
  obtain ⟨xs, c, rfl⟩ : ∃ xs c, cs = xs ++ [c] := by
    rcases List.eq_nil_or_concat cs with rfl | ⟨xs, c, rfl⟩
    · cases hlen
    · exact ⟨xs, c, List.concat_eq_append⟩
  have hxs : xs.length = 79 := by
    rw [List.length_append, List.length_singleton] at hlen; omega
  have hlt : xs.length < 80 := by omega
  rw [List.map_append]
  refine ⟨fun hr => ?_, fun hr hm => ?_⟩
  · obtain ⟨m, k, hall, hmem⟩ := execAll_plain hp hf hi hc (Nat.lt_succ_of_lt hr) hlt
    have filled := hmem.concat hlt c
    refine ⟨_, execAll_concat hall hf (exec_putcPlain_typed_wrap hp hi hr hxs m k c) hf, ?_,
      congrFun filled.cells, filled.outside⟩
    unfold State.displayed
    rw [← hc]
  · obtain ⟨m, k, hall, hmem⟩ := execAll_plain hp hf hi hc (hr.trans_lt (by decide)) hlt
    have filled := hmem.concat hlt c
    have cells := filled.cells
    have scrolled := (s.withMem (s.memTyping xs m c)).scroll_scrolledFrom (filled.wf hm)
    rw [hr] at cells
    rw [cells] at scrolled
    refine ⟨_, execAll_concat hall hf (exec_putcPlain_typed_scroll hp hi hr hxs (hmem.wf hm) k c) hf, ?_,
      scrolled, fun x hx => ?_⟩
    · have row : s.cursorRow = 24 := BitVec.eq_of_toNat_eq hr
      rw [cells, List.take_left' hxs, List.getD_append_right _ _ _ _ (Nat.le_of_eq hxs), hxs]
      unfold State.displayed
      rw [← hc, ← row]
      simp only [List.append_assoc]
      rfl
    · refine ((s.withMem (s.memTyping xs m c)).scroll_sameBytesOutside x hx).trans (filled.outside x ?_)
      simp only [cellAddr, hr] at hx ⊢
      omega

/-! ## WRITE_STRING (R82, R114) -/

/-- Settles O49: every byte of the text passes the test that the first NUL fails. -/
theorem writeStringStopsAtTheTerminator : Obligations.WriteStringStopsAtTheTerminator := by
  intro p text after hnul
  have passes : ∀ b ∈ text, (b != NUL) = true := fun b hb => bne_iff_ne.2 fun e => hnul (by rw [e] at hb; exact hb)
  have cut : (text ++ 0x00 :: after).takeWhile (· != NUL) = text := by
    rw [List.takeWhile_append_of_pos passes, List.takeWhile_cons_of_neg (by decide), List.append_nil]
  exact ⟨congrArg writeInputs cut, congrArg writeInputs (List.takeWhile_eq_self_iff.2 passes)⟩

end Sys2Proof.Machine

/-! ### Proofs for the keyboard family (41_keyboard.md): the poll and the read, the five scancode classes, the
shifted selector and the lookup. -/

namespace Sys2Proof.Machine

/-! ## KEY_MAKE (R140, R142) -/

/-- The effect of the data read on a state, written out (R131). -/
theorem State.kbdRead_eq (s : State) (sc : Byte) :
    s.kbdRead sc = { s with phase := .poll, trace := s.trace ++ [.portIn s.params.kbdDataPort sc] } := rfl

/-- A mapped key after INIT is the PUTC form of its character on the state after the read: the two steps begin
in different states, which only a raised fault would tell apart, and after INIT a PUTC raises none. -/
theorem exec_scKeyMake_eq_putcForm {s : State} {key : Key} {c : Byte} (hi : s.initDone = true)
    (hkey : decodeKey s.params key s.shifted = some c) :
    exec (.scKeyMake key) s = exec (putcForm c) (s.kbdRead (makeCode key)) := by
  rw [exec_scKeyMake_mapped hkey, exec_putcForm]
  cases hput : (s.kbdRead (makeCode key)).putc c (putcBody c) with
  | ok t => rfl
  | error stop =>
    cases stop with
    | raised cause =>
      obtain ⟨hinit, -⟩ := State.putc_raised (putcBody_not_raised c _) hput
      exact absurd (hinit.symm.trans hi) Bool.false_ne_true
    | stopped why => rfl
    | refused why => rfl

/-- A PUTC form after INIT, with the cursor in range, completes and leaves the latch FSM, `attr` and `fault` as
they were (R106, R115, R143). -/
theorem exec_putcForm_frame {s : State} (hp : s.params.wf = true) (hi : s.initDone = true) (hc : s.cursorInRange)
    (c : Byte) :
    ∃ t : State, exec (putcForm c) s = .next t ∧ t.shiftHeld = s.shiftHeld ∧ t.capsLocked = s.capsLocked
      ∧ t.phase = s.phase ∧ t.attr = s.attr ∧ t.fault = s.fault := by
  obtain ⟨u, hu⟩ := putcBody_ok c hc
  have shape := putcBody_shape hu
  obtain ⟨hattr, -, hshift, hcaps, hphase, hfault, -⟩ := State.putcShape_frame shape
  exact ⟨_, (exec_putcForm c s).trans (finish_putc_eq hp hi hu shape), hshift, hcaps, hphase, hattr, hfault⟩

/-- Settles O38: the key's step is the PUTC form's after the read, which completes. -/
theorem mappedKeyIsOnePutc : Obligations.MappedKeyIsOnePutc := by
  intro s key c hp hi hc hkey
  obtain ⟨t, hput, frame⟩ := exec_putcForm_frame (s := s.kbdRead (makeCode key)) hp hi hc c
  exact ⟨t, (exec_scKeyMake_eq_putcForm hi hkey).trans hput, hput, frame⟩

/-- Settles O37: nothing is forwarded, so the step is the read, and no `init_done` is asked for. -/
theorem unmappedKeyDoesNothing : Obligations.UnmappedKeyDoesNothing := by
  intro s key hkey
  change decodeKey s.params key s.shifted = none at hkey
  rw [exec_scKeyMake, hkey]
  exact congrArg Host.Outcome.next (s.kbdRead_eq (makeCode key))

/-! ## KBD_POLL (R130) and KBD_READ (R131) -/

/-- Settles O9: a running block in phase READ takes the input and reads it as a scancode. -/
theorem stepRunsTheScancode : Obligations.StepRunsTheScancode :=
  fun _ _ _ => step_read

/-- A status answer without the ready bit: the read is all there is. -/
theorem kbdPoll_not_ready {s : State} {v : Byte} (h : v &&& s.params.kbdReadyMask = 0) :
    s.kbdPoll v = { s with trace := s.trace ++ [.portIn s.params.kbdStatusPort v] } := by
  have notReady : ¬statusReady s.params v = true := fun ready => bne_iff_ne.1 ready h
  unfold State.kbdPoll
  exact if_neg notReady

/-- Settles O10, by the ready bit: set, the poll goes to READ; clear, it leaves the phase, which is POLL. -/
theorem pollReadsTheStatusPort : Obligations.PollReadsTheStatusPort := by
  intro s status rest hrun hphase hin
  rw [step_poll hrun hphase hin]
  by_cases ready : status &&& s.params.kbdReadyMask ≠ 0
  · rw [kbdPoll_ready (s := s.withInputs rest) ready, if_pos ready]
    rfl
  · rw [kbdPoll_not_ready (s := s.withInputs rest) (not_not.1 ready), if_neg ready, ← hphase]
    rfl

/-! ## Modifier keys (R136 to R138) -/

theorem exec_scShiftMake (k : ShiftKey) (s : State) :
    exec (.scShiftMake k) s = .next ((s.kbdRead (shiftMakeCode k)).setShift true) := rfl

theorem exec_scShiftBreak (k : ShiftKey) (s : State) :
    exec (.scShiftBreak k) s = .next ((s.kbdRead (shiftBreakCode k)).setShift false) := rfl

theorem exec_scCapsMake (s : State) :
    exec .scCapsMake s = .next ((s.kbdRead CAPS_MAKE).setCaps (!s.capsLocked)) := rfl

theorem exec_scBreakOther (key : Key) (s : State) :
    exec (.scBreakOther key) s = .next (s.kbdRead (breakCode key)) := rfl

/-- Settles O33, key by key: the read of the key's make code, then the latch. -/
theorem shiftMakeSetsTheLatch : Obligations.ShiftMakeSetsTheLatch := by
  intro s k
  refine ⟨rfl, rfl, (exec_scShiftMake k s).trans ?_⟩
  cases k with
  | left => rfl
  | right => rfl

/-- Settles O34, key by key: the read of the key's break code, then the one latch. -/
theorem shiftBreakClearsTheLatch : Obligations.ShiftBreakClearsTheLatch := by
  intro s k
  refine ⟨rfl, rfl, (exec_scShiftBreak k s).trans ?_⟩
  cases k with
  | left => rfl
  | right => rfl

/-- Settles O35: the second make negates the latch again; the break code is one of the other breaks, which only
reads. -/
theorem capsMakeTogglesTheLatch : Obligations.CapsMakeTogglesTheLatch := by
  intro s
  have capsBreak : decodeScancode 0xBA = .scBreakOther 0x3A := decodeScancode_breakCode 0x3A
  refine ⟨rfl, ⟨_, exec_scCapsMake s, rfl, _, exec_scCapsMake _, Bool.not_not s.capsLocked⟩, ?_⟩
  rw [capsBreak]
  exact ⟨_, exec_scBreakOther 0x3A s, rfl⟩

/-! ## Other breaks (R139) -/

/-- Settles O36: the class is R78's, and the byte read back is the break code of the class's key. -/
theorem otherBreaksDoNothing : Obligations.OtherBreaksDoNothing := by
  intro s sc h hleft hright
  obtain ⟨-, -, -, -, -, breaks, -⟩ := scancodesClassifyByValue sc
  refine ⟨breaks h hleft hright, ?_⟩
  rw [exec_scBreakOther, ← eq_breakCode h]
  rfl

/-! ## The selector and the lookup (R134, R135, R141) -/

theorem State.shifted_eq {s : State} {shift caps : Bool} (hshift : s.shiftHeld = shift)
    (hcaps : s.capsLocked = caps) : s.shifted = xor shift caps := by
  rw [State.shifted, hshift, hcaps]

/-- Settles O40: each line is one value of the exclusive or. -/
theorem shiftedSelectorTable : Obligations.ShiftedSelectorTable :=
  fun _ => ⟨State.shifted_eq, State.shifted_eq, State.shifted_eq, State.shifted_eq⟩

/-- DECODE of a key whose entry is known, under both values of the selector. -/
theorem decodeKey_of_entry {p : Params} {key : Key} {u s : Option Byte} (h : p.entry key = ⟨u, s⟩) :
    decodeKey p key false = u ∧ decodeKey p key true = s := by
  unfold decodeKey
  rw [h]
  exact ⟨rfl, rfl⟩

/-- Settles O41: the two entries are part of what makes a configuration one the spec covers. -/
theorem fixedKeymapEntries : Obligations.FixedKeymapEntries := by
  intro p hp
  obtain ⟨-, -, -, -, -, -, -, -, -, entryA, entryEsc⟩ := params_wf_iff.1 hp
  obtain ⟨unshiftedA, shiftedA⟩ := decodeKey_of_entry entryA
  exact ⟨unshiftedA, shiftedA, decodeKey_of_entry entryEsc⟩

end Sys2Proof.Machine

/-! ### Proofs for the exceptions family (60_exceptions.md): the stop after a fault (R166). -/

namespace Sys2Proof.Machine

/-- The other side of `step_running`: R166's stop is decided by the fault alone, before an input is taken. -/
theorem step_of_faulted {s : State} {cause : Cause} (h : s.fault = some cause) :
    step s = .fault (.blockStopped cause) := by
  unfold step; rw [h]

/-- Settles O12: lining up inputs leaves the fault as it is. -/
theorem faultedBlockTakesNoStep : Obligations.FaultedBlockTakesNoStep := by
  intro s cause x hfault
  have hlined : (s.withInputs x).fault = some cause := hfault
  exact step_of_faulted hlined

end Sys2Proof.Machine
